-- ==== Sys2Proof/Word.lean ====
section
/-! DEFINITION. The value types of the block: bytes, command words and the 64-bit bit length
(spec 00_scope R13 to R15, 30_encoding R70). -/

namespace Sys2Proof

/-- A `u8` of the spec (R15). -/
abbrev Byte := BitVec 8

/-- A command word (R70): a 16-bit value, bit 0 least significant (R14). -/
abbrev Word := BitVec 16

/-- The `u64` of `BITLEN` (R26). -/
abbrev U64 := BitVec 64

end Sys2Proof
end

