-- ==== Sys2Proof/Config.lean ====
section
/-! DEFINITION. The fixed parameters of the block (00_scope R8) and its one open parameter
`BUF_CAP` (R9). The spec leaves no value free (93_implementation_defined, part 1), so there is no
opaque constant here. -/

namespace Sys2Proof

/-- `BLOCK_BYTES` (R8). -/
abbrev blockBytes : Nat := 64

/-- `LEN_FIELD_BYTES` (R8). -/
abbrev lenFieldBytes : Nat := 8

/-- `BYTE_BITS` (R8). -/
abbrev byteBits : Nat := 8

/-- `BLOCK_BITS` (R8). -/
abbrev blockBits : Nat := 512

/-- `LEN_FIELD_BITS` (R8): the width of `BITLEN`. -/
abbrev lenFieldBits : Nat := 64

/-- `MARKER` (R8). -/
abbrev marker : Byte := 0x80

/-- `FILL` (R8). -/
abbrev fill : Byte := 0x00

/-- `MAX_MSG_BYTES` (R8): the longest message whose bit length fits 64 bits. -/
abbrev maxMsgBytes : Nat := 2 ^ 61 - 1

/-- The parameter `BUF_CAP` (R9): a number of bytes, or `none` for the spec's `unbounded`.
DESIGN CHOICE, log 4: safe. It is carried beside the architectural state, because the host's `step`
takes a state and nothing else; no step changes it. -/
structure Config where
  bufCap : Option Nat
  deriving DecidableEq, Repr

/-- The default of R9, under which every rule of the spec is exact to its source. -/
def Config.unbounded : Config := ⟨none⟩

end Sys2Proof
end

