-- ==== Sys2Proof/Syntax.lean ====
section
/-! DEFINITION. The five commands of the block (30_encoding R71, spec/opcode_table.json) and the raw
fields of a command word (R70). -/

namespace Sys2Proof

/-- The commands, one constructor per row of spec/opcode_table.json. -/
inductive Instr where
  /-- `INIT` (R90). -/
  | init
  /-- `PUSH imm8` (R92): the operand is the message byte (R72). -/
  | push (imm8 : Byte)
  /-- `PAD` (R100). -/
  | pad
  /-- `SPLIT` (R130). -/
  | split
  /-- `NEXT` (R137). -/
  | next
  deriving DecidableEq, Repr

/-- The three fields every command word has (R70), before any check. -/
structure Fields where
  /-- Bits [15:12]. -/
  op : BitVec 4
  /-- Bits [11:8], must be zero. -/
  mbz : BitVec 4
  /-- Bits [7:0]. -/
  imm8 : Byte
  deriving DecidableEq, Repr

end Sys2Proof
end

