-- ==== Sys2Proof/WellFormed.lean ====
section
/-! DEFINITION. Which raw fields make a command (30_encoding R70, R71, R74), and which instructions
are well formed (all of them: R72 makes every byte a legal operand). -/

namespace Sys2Proof

/-- The five assigned operation codes (R71). -/
def Fields.opAssigned (f : Fields) : Bool :=
  f.op == 0x1 || f.op == 0x2 || f.op == 0x3 || f.op == 0x4 || f.op == 0x5

/-- The must-be-zero field is zero (R70). -/
def Fields.mbzClear (f : Fields) : Bool := f.mbz == 0x0

/-- `imm8` is zero on every command but `PUSH` (R70). -/
def Fields.immLegal (f : Fields) : Bool := f.op == 0x2 || f.imm8 == 0x00

/-- The fields are those of a command, not of an `invalid` word (R74). -/
def Fields.wellFormed (f : Fields) : Bool := f.opAssigned && f.mbzClear && f.immLegal

/-- An instruction is well formed when its operand is legal: R72 says all 256 values of `imm8` are,
and no other command has an operand. -/
def Instr.wellFormed : Instr → Bool
  | .init => true
  | .push _ => true
  | .pad => true
  | .split => true
  | .next => true

end Sys2Proof
end

