-- ==== Sys2Proof/Decode.lean ====
section
/-! DEFINITION. The decoder (30_encoding R73), total on 16-bit words and rejecting by name, the
encoder, the opcode table (R71), and the host's view of the decoder. -/

namespace Sys2Proof

/-- Why a word is `invalid` (R74). The three cases are one refusal to the machine
(60_exceptions R160, `invalid_encoding`); the names are the decoder's own. -/
inductive Invalid where
  | mbzNonzero
  | imm8Nonzero
  | reservedOp
  deriving DecidableEq, Repr

/-- The fields of a word (R70). -/
def Fields.ofWord (w : Word) : Fields where
  op := w.extractLsb' 12 4
  mbz := w.extractLsb' 8 4
  imm8 := w.extractLsb' 0 8

/-- The word with the given fields (R70). -/
def Fields.toWord (f : Fields) : Word := f.op ++ f.mbz ++ f.imm8

/-- `decode` of R73, its tests in that order. -/
def decodeFields (f : Fields) : Except Invalid Instr :=
  if f.mbz ≠ 0x0 then .error .mbzNonzero
  else if f.op = 0x2 then .ok (.push f.imm8)
  else if f.imm8 ≠ 0x00 then .error .imm8Nonzero
  else if f.op = 0x1 then .ok .init
  else if f.op = 0x3 then .ok .pad
  else if f.op = 0x4 then .ok .split
  else if f.op = 0x5 then .ok .next
  else .error .reservedOp

/-- The decoder (R73). -/
def decode (w : Word) : Except Invalid Instr := decodeFields (Fields.ofWord w)

/-- The fields each command is encoded with (R71). -/
def encodeFields : Instr → Fields
  | .init => ⟨0x1, 0x0, 0x00⟩
  | .push b => ⟨0x2, 0x0, b⟩
  | .pad => ⟨0x3, 0x0, 0x00⟩
  | .split => ⟨0x4, 0x0, 0x00⟩
  | .next => ⟨0x5, 0x0, 0x00⟩

/-- The encoder (R73): one word per command. -/
def encode (i : Instr) : Word := (encodeFields i).toWord

/-- A match/mask row of R71. -/
structure TableRow where
  pattern : Word
  mask : Word
  deriving DecidableEq, Repr

/-- The row of R71 (and of spec/opcode_table.json) each command belongs to. -/
def Instr.row : Instr → TableRow
  | .init => ⟨0x1000, 0xFFFF⟩
  | .push _ => ⟨0x2000, 0xFF00⟩
  | .pad => ⟨0x3000, 0xFFFF⟩
  | .split => ⟨0x4000, 0xFFFF⟩
  | .next => ⟨0x5000, 0xFFFF⟩

/-- `(w AND mask) = match` (R71). -/
def TableRow.covers (r : TableRow) (w : Word) : Bool := w &&& r.mask == r.pattern

/-- The five rows of R71, in its order. -/
def opcodeTable : List TableRow :=
  [Instr.row .init, Instr.row (.push 0), Instr.row .pad, Instr.row .split, Instr.row .next]

/-- What the decoder reads from a table word whose bit 0 is the least significant (R70 numbers the
bits so, and a command is one word). DESIGN CHOICE, log 12: safe. More than 16 bits is no command. -/
def decodeTableWord (nbits w : Nat) : Option Instr :=
  if nbits ≤ 16 ∧ w < 2 ^ 16 then
    match decode (BitVec.ofNat 16 w) with
    | .ok i => some i
    | .error _ => none
  else none

end Sys2Proof
end

