-- ==== Sys2Proof/Machine/State.lean ====
section
/-! DEFINITION. The block's state (10_state R20), what stands beside it (R40: parameter, command
stream, trace), the reset values (R39), and the reasons a step can stop. -/

namespace Sys2Proof.Machine

/-- `PHASE` (10_state R29); the 2-bit codes are `Phase.code`. -/
inductive Phase where
  /-- The buffer is open: message bytes may be appended. -/
  | load
  /-- `PAD` has succeeded; no block sequence is open yet. -/
  | padded
  /-- `SPLIT` has succeeded; the buffer is sealed and a block sequence is open. -/
  | part
  /-- A fault was taken; only `INIT` or reset is accepted. -/
  | fault
  deriving DecidableEq, Repr

/-- The block's three faults (60_exceptions R150), each a defined step (R161), not a stop of the
model. -/
inductive ErrKind where
  /-- `OverflowError` (R151), raised by `PAD`. -/
  | overflow
  /-- `PaddingInvariantError` (R152), raised by `PAD`; dead (R111). -/
  | padinv
  /-- `AlignmentError` (R153), raised by `SPLIT`. -/
  | align
  deriving DecidableEq, Repr

/-- The response record (30_encoding R78). `endSeq` is the spec's `END` (log 7). -/
inductive Response where
  /-- `ACK`: the command completed. -/
  | ack
  /-- `BLK`: a block, its position, and whether it is the last. -/
  | blk (index : Nat) (last : Bool) (data : List Byte)
  /-- `END`: the sequence has been fully delivered (R77). -/
  | endSeq
  /-- `ERR`: the command took this fault. -/
  | err (kind : ErrKind)
  deriving DecidableEq, Repr

/-- `data` is exactly 64 bytes (R78, 20_memory R57). -/
def Response.wellFormed : Response → Bool
  | .ack => true
  | .blk _ _ data => data.length == blockBytes
  | .endSeq => true
  | .err _ => true

/-- What the outside does to the block: choose the next command word (00_scope R12), or reset it
between commands (70_reset_and_hazards R180; log 3). -/
inductive Event where
  | command (w : Word)
  | reset
  deriving DecidableEq, Repr

/-- `BUF`: (address, byte) cells, addresses strictly rising. DESIGN CHOICE, log 6: safe. An address
that is not listed holds no byte (10_state R23: bytes beyond `BLEN` are not represented). -/
abbrev Memory := List Host.Cell

/-- What an address that no cell lists reads as: no value at all (R23). -/
def Memory.unlisted : Option Byte := none

/-- The canonical form: addresses strictly rising. No cell can equal the unlisted reading, which is
no byte. -/
abbrev Memory.wf (m : Memory) : Prop := List.Pairwise (fun c d => c.1 < d.1) m

/-- The nine elements of 10_state R20, in its order. -/
structure Arch where
  /-- `BUF` (R23). -/
  buf : Memory
  /-- `BLEN` (R24). -/
  blen : Nat
  /-- `MLEN` (R25). -/
  mlen : Nat
  /-- `BITLEN` (R26). -/
  bitlen : U64
  /-- `BCNT` (R27). -/
  bcnt : Nat
  /-- `BIDX` (R28). -/
  bidx : Nat
  /-- `PHASE` (R29). -/
  phase : Phase
  /-- `PD` (R31). -/
  pd : Bool
  /-- `ERR` (R32); `none` is `NONE`. -/
  err : Option ErrKind
  deriving DecidableEq, Repr

/-- The machine the host steps: the nine elements, and beside them what 10_state R40 says is not
state of the block (logs 1, 4, 5). -/
structure State extends Arch where
  /-- `BUF_CAP` (00_scope R9). No step changes it. -/
  cfg : Config
  /-- The command stream still to come, with resets between commands (R22, R40). -/
  input : List Event
  /-- The responses so far, oldest first (70_reset_and_hazards R193). -/
  trace : List Response
  deriving DecidableEq, Repr

/-- Why the model stops a run without a next state. The spec's own faults are steps (`ErrKind`). -/
inductive Fault where
  /-- Raised by `NEXT` alone, when an address of the 64 it reads holds no byte: 00_scope R16 defines
  `MemRead` only inside the buffer. Safe: no state that keeps the invariant of 10_state R38 gets
  here (log 6). -/
  | outsideBuffer
  deriving DecidableEq, Repr

/-- Why a command has no step (60_exceptions R160). All are safe: no claim rests on what a
realisation does next. -/
inductive Refusal where
  /-- Raised by `exec` for an instruction without a meaning; there is none left. -/
  | notModelled (mnemonic : String)
  /-- Raised by the step for a word that decodes to `invalid` (30_encoding R74). -/
  | invalidEncoding
  /-- Raised by `PUSH`, `PAD`, `SPLIT`, `NEXT` in a phase where they are not legal (R30). -/
  | wrongPhase
  /-- Raised by `PUSH` and `PAD` when a finite `BUF_CAP` would be exceeded (R93, R112). -/
  | capacity
  deriving DecidableEq, Repr

/-- The reset values of 10_state R39. -/
def Arch.reset : Arch where
  buf := []
  blen := 0
  mlen := 0
  bitlen := 0
  bcnt := 0
  bidx := 0
  phase := .load
  pd := false
  err := none

/-- The machine right after reset, for a given `BUF_CAP`: the elements of R39, no command waiting
(log 1), no response yet (log 5). -/
def State.resetWith (c : Config) : State where
  toArch := Arch.reset
  cfg := c
  input := []
  trace := []

/-- The machine right after reset (R39, R180), with the default `BUF_CAP` of R9. -/
def State.reset : State := State.resetWith Config.unbounded

end Sys2Proof.Machine
end

