-- ==== Sys2Proof/Machine/Flags.lean ====
section
/-! DEFINITION. The control and status fields as software sees them: the codes of `PHASE`, `ERR` and
the response kinds, the `STATUS` value (10_state R33), the status port (R41) and the computed
`last` bit (R35). -/

namespace Sys2Proof.Machine

/-- The values of `PHASE` (R29). -/
def Phase.code : Phase → BitVec 2
  | .load => 0
  | .padded => 1
  | .part => 2
  | .fault => 3

/-- The fault codes (R32, 60_exceptions R150). -/
def ErrKind.code : ErrKind → BitVec 2
  | .overflow => 1
  | .padinv => 2
  | .align => 3

/-- The values of `ERR` (R32): 0 when there is none. -/
def errCode : Option ErrKind → BitVec 2
  | none => 0
  | some k => k.code

/-- The response kind codes (30_encoding R78). -/
def Response.code : Response → BitVec 2
  | .ack => 0
  | .blk _ _ _ => 1
  | .endSeq => 2
  | .err _ => 3

/-- `STATUS` (R33): reserved bits 7, 6 and 3 read 0. -/
def Arch.status (a : Arch) : BitVec 8 :=
  (0 : BitVec 2) ++ errCode a.err ++ (0 : BitVec 1) ++ BitVec.ofBool a.pd ++ a.phase.code

/-- The status port (R41), with the names SR0 to SR5 of R33 in order. -/
structure StatusPort where
  status : BitVec 8
  blen : Nat
  mlen : Nat
  bitlen : U64
  bcnt : Nat
  bidx : Nat
  deriving DecidableEq, Repr

/-- What the status port shows (R41): projections of the state, without a command and without side
effect. `BUF` is not on it. -/
def Arch.statusPort (a : Arch) : StatusPort :=
  ⟨a.status, a.blen, a.mlen, a.bitlen, a.bcnt, a.bidx⟩

/-- The `last` bit of a block response (R35, R137): computed, never stored. -/
def Arch.lastBit (a : Arch) : Bool := a.bidx + 1 == a.bcnt

end Sys2Proof.Machine
end

