-- ==== Sys2Proof/Machine/Operands.lean ====
section
/-! DEFINITION. Operand and address forms (20_memory R51), and the pure functions the commands
realise: the length encoder (41_pad R108), the padding (R101 to R109) and the partition
(42_split R131 to R133, R139). -/

namespace Sys2Proof.Machine

/-- Where `PUSH` and `PAD` write: at `BLEN` (R51). -/
def appendAddr (a : Arch) : Nat := a.blen

/-- Where `NEXT` reads: at `64 * BIDX` (R51). -/
def blockAddr (a : Arch) : Nat := blockBytes * a.bidx

/-- The bit length fits 64 bits exactly when this is false (R102). -/
def lengthOverflows (n : Nat) : Bool := decide (2 ^ 61 ≤ n)

/-- `bl = 8 * n` as a `u64` (R101). -/
def bitLength (n : Nat) : U64 := BitVec.ofNat 64 (byteBits * n)

/-- The zero-fill count `z = (55 - n) mod 64`, the remainder taken in the integers (R106, R13). -/
def zeroFill (n : Nat) : Nat := ((55 - (n : Int)) % 64).toNat

/-- `be64` (R108): byte `k` is `v[63 - 8k : 56 - 8k]`. PRESUMED (by the spec, its G1), log 10:
unsafe. -/
def be64 (v : U64) : List Byte :=
  (List.range lenFieldBytes).map fun k => v.extractLsb' (56 - 8 * k) 8

/-- The inverse of R108: bytes read as a big-endian unsigned integer. -/
def beValue (bs : List Byte) : Nat := bs.foldl (fun acc b => acc * 256 + b.toNat) 0

/-- `zeros(n)` (R15). -/
def zeros (n : Nat) : List Byte := List.replicate n fill

/-- What `PAD` appends to a message of `n` bytes (R104, R105, R108, R109). -/
def padTail (n : Nat) : List Byte := marker :: zeros (zeroFill n) ++ be64 (bitLength n)

/-- The source's `pad` (R109) with its one failure (R102). -/
def pad (m : List Byte) : Except ErrKind (List Byte) :=
  if lengthOverflows m.length then .error .overflow
  else .ok (m ++ padTail m.length)

/-- The window `s[64 * i ..< 64 * i + 64]` (R133). -/
def window (s : List Byte) (i : Nat) : List Byte := (s.drop (blockBytes * i)).take blockBytes

/-- The source's `splitBlocks` (R139) with its one failure (R131). -/
def splitBlocks (s : List Byte) : Except ErrKind (List (List Byte)) :=
  if s.length % blockBytes = 0 then .ok ((List.range (s.length / blockBytes)).map (window s))
  else .error .align

/-- A block as one 512-bit value, byte 0 most significant (30_encoding R79). -/
def flatData (data : List Byte) : BitVec 512 := BitVec.ofNat 512 (beValue data)

/-- `index` as a 64-bit field, zero-extended (R79); no field when the number needs more than 64 bits
(DESIGN CHOICE, log 16: safe). -/
def flatIndex (index : Nat) : Option (BitVec 64) :=
  if index < 2 ^ 64 then some (BitVec.ofNat 64 index) else none

end Sys2Proof.Machine
end

