-- ==== Sys2Proof/Machine/Ops.lean ====
section
/-! DEFINITION. The operations the five commands share: the buffer's reads and writes
(00_scope R16), responding, taking a fault (60_exceptions R155) and leaving it (R157), the phase
table (10_state R30), the capacity tests, and the fetch from the command stream. -/

namespace Sys2Proof.Machine

/-- What a step of this machine answers. -/
abbrev Result := Host.Outcome State Fault Refusal

/-! ### The buffer -/

/-- The byte at an address, if the buffer has one there. -/
def Memory.readByte : Memory → Nat → Option Byte
  | [], _ => Memory.unlisted
  | c :: m, a => if c.1 = a then some c.2 else Memory.readByte m a

/-- Store one byte, keeping the cells in rising order. -/
def Memory.writeByte : Memory → Nat → Byte → Memory
  | [], a, b => [(a, b)]
  | c :: m, a, b =>
    if a < c.1 then (a, b) :: c :: m
    else if a = c.1 then (a, b) :: m
    else c :: Memory.writeByte m a b

/-- `MemRead(a, n)` (R16): defined only when every address holds a byte. -/
def Memory.readBytes (m : Memory) : Nat → Nat → Option (List Byte)
  | _, 0 => some []
  | a, n + 1 =>
    match m.readByte a, m.readBytes (a + 1) n with
    | some b, some bs => some (b :: bs)
    | _, _ => none

/-- `MemWrite(a, n, v)` (R16): the bytes of `v`, first at the lowest address. -/
def Memory.writeBytes (m : Memory) (a : Nat) : List Byte → Memory
  | [] => m
  | b :: bs => (m.writeByte a b).writeBytes (a + 1) bs

/-- The buffer as the byte sequence the spec's functions take (R15). -/
def Memory.bytes (m : Memory) : List Byte := m.map Prod.snd

/-- How many bytes the buffer holds. -/
def Memory.size (m : Memory) : Nat := m.length

/-- The addresses that hold a byte are exactly 0, 1, ..., n - 1 (10_state R23). -/
abbrev Memory.Filled (m : Memory) (n : Nat) : Prop := m.map Prod.fst = List.range n

/-! ### Responses, faults and refusals -/

/-- `respond R` (R16): the one response of the command, after all earlier ones (R193). -/
def State.respond (s : State) (r : Response) : State := { s with trace := s.trace ++ [r] }

/-- `raise F` (60_exceptions R155): `ERR` and `PHASE`, the response, and nothing else. -/
def State.enterFault (s : State) (k : ErrKind) : State :=
  { s with err := some k, phase := .fault }.respond (.err k)

/-- Taking a fault is a step (R161). -/
def raise (s : State) (k : ErrKind) : Result := .next (s.enterFault k)

/-- Every element at its reset value (R39, R90): what `INIT` and reset do, and the only way out of
phase `FAULT` (R157). The trace stays (R193). -/
def State.clear (s : State) : State := { s with toArch := Arch.reset }

/-- Which command is legal in which phase (10_state R30, R160). -/
def legalIn : Instr → Phase → Bool
  | .init, _ => true
  | .push _, p => p == .load
  | .pad, p => p == .load
  | .split, p => p != .fault
  | .next, p => p == .part

/-- `BLEN = BUF_CAP` (R92, R93), false for an unbounded buffer. The test is the equality R92 writes
(DEDUCED, log 9: safe). -/
def bufferFull (s : State) : Bool := s.cfg.bufCap == some s.blen

/-- A result of `n` bytes would exceed `BUF_CAP` (R100, R112), false for an unbounded buffer. -/
def exceedsCap (s : State) (n : Nat) : Bool :=
  match s.cfg.bufCap with
  | none => false
  | some cap => decide (cap < n)

/-! ### The commands' writes -/

/-- Append one message byte at `BLEN` and advance it (R92). -/
def State.appendByte (s : State) (b : Byte) : State :=
  { s with buf := s.buf.writeByte (appendAddr s.toArch) b, blen := s.blen + 1 }

/-- The candidate padded buffer `P` of R100: the message and its tail, written at `BLEN` (R51). -/
def padCandidate (s : State) : Memory := s.buf.writeBytes (appendAddr s.toArch) (padTail s.blen)

/-- The commit of R100: `BUF`, `BLEN`, `MLEN`, `BITLEN`, `PD`, `PHASE` together (R37). -/
def State.commitPad (s : State) : State :=
  { s with
    buf := padCandidate s
    blen := (padCandidate s).size
    mlen := s.blen
    bitlen := bitLength s.blen
    pd := true
    phase := .padded }

/-- Open the block sequence at its first block (R130). -/
def State.openSequence (s : State) : State :=
  { s with bcnt := s.blen / blockBytes, bidx := 0, phase := .part }

/-- `BIDX <- BIDX + 1` (R137). -/
def State.advance (s : State) : State := { s with bidx := s.bidx + 1 }

/-! ### The command stream -/

/-- The event at the head of the stream, and the state with it taken off (R22, R62). -/
def fetch (s : State) : Option (Event × State) :=
  match s.input with
  | [] => none
  | e :: rest => some (e, { s with input := rest })

/-- Reset between commands (70_reset_and_hazards R180): the state of R39, and no response (DEDUCED,
log 3: safe for single commands, unsafe for a claim about which waiting words run after it). -/
def State.takeReset (s : State) : State := s.clear

end Sys2Proof.Machine
end

