-- ==== Sys2Proof/Machine/Load.lean ====
section
/-! DEFINITION. The message load commands `INIT` and `PUSH` (40_message_load R90, R92). -/

namespace Sys2Proof.Machine

/-- `INIT` (R90). -/
def execInit (s : State) : Result := .next (s.clear.respond .ack)

/-- `PUSH imm8` (R92, R93). -/
def execPush (imm8 : Byte) (s : State) : Result :=
  if legalIn (.push imm8) s.phase = false then .refused .wrongPhase
  else if bufferFull s then .refused .capacity
  else .next ((s.appendByte imm8).respond .ack)

end Sys2Proof.Machine
end

