-- ==== Sys2Proof/Machine/Pad.lean ====
section
/-! DEFINITION. The `PAD` command (41_pad R100), its tests in the order of R103 and
60_exceptions R158. -/

namespace Sys2Proof.Machine

/-- `PAD` (R100). The `PADINV` arm is kept and is dead (R111); the test is on the assembled candidate
(DEDUCED, log 8: safe). -/
def execPad (s : State) : Result :=
  if legalIn .pad s.phase = false then .refused .wrongPhase
  else if lengthOverflows s.blen then raise s .overflow
  else if exceedsCap s (s.blen + 9 + zeroFill s.blen) then .refused .capacity
  else if (padCandidate s).size % blockBytes ≠ 0 then raise s .padinv
  else .next (s.commitPad.respond .ack)

end Sys2Proof.Machine
end

