-- ==== Sys2Proof/Machine/Partition.lean ====
section
/-! DEFINITION. The partition commands `SPLIT` and `NEXT` (42_split R130, R137). -/

namespace Sys2Proof.Machine

/-- `SPLIT` (R130). An empty buffer is zero blocks (R136, 90_conflicts C4). -/
def execSplit (s : State) : Result :=
  if legalIn .split s.phase = false then .refused .wrongPhase
  else if s.blen % blockBytes ≠ 0 then raise s .align
  else .next (s.openSequence.respond .ack)

/-- `NEXT` (R137, R138). -/
def execNext (s : State) : Result :=
  if legalIn .next s.phase = false then .refused .wrongPhase
  else if s.bidx = s.bcnt then .next (s.respond .endSeq)
  else
    match s.buf.readBytes (blockAddr s.toArch) blockBytes with
    | none => .fault .outsideBuffer
    | some d => .next (s.advance.respond (.blk s.bidx s.lastBit d))

end Sys2Proof.Machine
end

