-- ==== Sys2Proof/Machine/Dispatch.lean ====
section
/-! DEFINITION. One arm per command, each a direct call of its meaning. -/

namespace Sys2Proof.Machine

def exec (i : Instr) (s : State) : Host.Outcome State Fault Refusal :=
  match i with
  | .init => Sys2Proof.Machine.execInit s
  | .push imm8 => Sys2Proof.Machine.execPush imm8 s
  | .pad => Sys2Proof.Machine.execPad s
  | .split => Sys2Proof.Machine.execSplit s
  | .next => Sys2Proof.Machine.execNext s

end Sys2Proof.Machine
end

