-- ==== Sys2Proof/Machine/Step.lean ====
section
/-! DEFINITION. One step (00_scope R11, 20_memory R62): take the event at the head of the command
stream, decode the word and run the command. -/

namespace Sys2Proof.Machine

/-- One step. With nothing waiting the block is idle and holds its state (60_exceptions R168;
DEDUCED, log 2: safe). A word that is no command is refused (30_encoding R74). -/
def step (s : State) : Host.Outcome State Fault Refusal :=
  match fetch s with
  | none => .next s
  | some (.reset, s') => .next s'.takeReset
  | some (.command w, s') =>
    match decode w with
    | .error _ => .refused .invalidEncoding
    | .ok i => exec i s'

/-- The environment places a command word at the head of the stream (R12), so that the next step
runs it (logs 1, 12). -/
def State.withFetchWord (s : State) (nbits w : Nat) : State :=
  { s with input := .command (BitVec.ofNat 16 (w % 2 ^ nbits)) :: s.input }

end Sys2Proof.Machine
end

