-- ==== Sys2Proof/Machine/Run.lean ====
section
/-! DEFINITION. Runs and their end (70_reset_and_hazards R194), and what a clean trace is
(60_exceptions R162). -/

namespace Sys2Proof.Machine

/-- How a run of command words ended (R194). A position counts from 0, as R15 counts (log 13). -/
inductive RunEnd where
  /-- Every word was accepted; the final state holds the trace. -/
  | completed (t : State)
  /-- The word at this position was refused; the state is the one before it. -/
  | refused (position : Nat) (why : Refusal) (t : State)
  /-- The model stopped at this position (`Fault`); no state of the spec gets here. -/
  | stopped (position : Nat) (why : Fault) (t : State)
  deriving DecidableEq, Repr

/-- Offer one word to the block (R12): it becomes the head of the stream. -/
def State.offer (s : State) (w : Word) : State := { s with input := .command w :: s.input }

/-- The words applied in order by the step function, from position `k` on (R194). -/
def runFrom : Nat → List Word → State → RunEnd
  | _, [], s => .completed s
  | k, w :: ws, s =>
    match step (s.offer w) with
    | .next t => runFrom (k + 1) ws t
    | .refused r => .refused k r s
    | .fault f => .stopped k f s

/-- A run (R194): a start state and a list of command words. -/
def runWords (ws : List Word) (s : State) : RunEnd := runFrom 0 ws s

/-- No `ERR` response in a trace (R162, R194): the run was clean. -/
def cleanTrace (t : List Response) : Bool :=
  t.all fun r => match r with
    | .err _ => false
    | .ack => true
    | .blk _ _ _ => true
    | .endSeq => true

/-- The blocks a trace carries, in order (R193): the `data` of its `BLK` responses. -/
def traceBlocks (t : List Response) : List (List Byte) :=
  t.filterMap fun r => match r with
    | .blk _ _ d => some d
    | .ack => none
    | .endSeq => none
    | .err _ => none

end Sys2Proof.Machine
end

