-- ==== Sys2Proof/Machine/Assembler.lean ====
section
/-! DEFINITION. The assembly syntax (30_encoding R80) and the pseudo-instructions (R81). A line is a
list of characters. What R80 leaves open of the lexical form is DESIGN CHOICE, log 11: safe. -/

namespace Sys2Proof.Machine

/-- What one line can say: a command (R80) or a pseudo-instruction (R81). -/
inductive Stmt where
  | cmd (i : Instr)
  /-- `PUSHS "c1...cn"`. -/
  | pushs (bytes : List Byte)
  /-- `PUSHN n, b`. -/
  | pushn (n : Nat) (b : Byte)
  | drain
  | prep
  deriving DecidableEq, Repr

/-! ### Pseudo-instructions -/

/-- `DRAIN` (R81): `BCNT - BIDX + 1` times `NEXT`. -/
def drainCommands (bcnt bidx : Nat) : List Instr := List.replicate (bcnt - bidx + 1) .next

/-- The blocks a buffer of `n` message bytes has after `PAD` (42_split R132). -/
def paddedBlocks (n : Nat) : Nat := (n + 8) / blockBytes + 1

/-- The expansion of R81, in a state whose registers `DRAIN` and `PREP` count from (log 14). -/
def expand (a : Arch) : Stmt → List Instr
  | .cmd i => [i]
  | .pushs bs => bs.map .push
  | .pushn n b => List.replicate n (.push b)
  | .drain => drainCommands a.bcnt a.bidx
  | .prep => .pad :: .split :: drainCommands (paddedBlocks a.blen) 0

/-! ### Reading a line -/

/-- A blank between tokens. -/
def isBlank (c : Char) : Bool := c == ' ' || c == '\t'

def skipBlanks (cs : List Char) : List Char := cs.dropWhile isBlank

/-- Nothing is left but blanks and a `#` comment (R80). -/
def atLineEnd (cs : List Char) : Bool :=
  match skipBlanks cs with
  | [] => true
  | c :: _ => c == '#'

def hexDigit (c : Char) : Option Nat :=
  if '0' ≤ c ∧ c ≤ '9' then some (c.toNat - 48)
  else if 'a' ≤ c ∧ c ≤ 'f' then some (c.toNat - 87)
  else if 'A' ≤ c ∧ c ≤ 'F' then some (c.toNat - 55)
  else none

def isDecimal (c : Char) : Bool := decide ('0' ≤ c ∧ c ≤ '9')

/-- A printable ASCII character (R80). -/
def isPrintable (c : Char) : Bool := decide (32 ≤ c.toNat ∧ c.toNat ≤ 126)

/-- The ASCII code of a character (R81). -/
def asciiByte (c : Char) : Byte := BitVec.ofNat 8 c.toNat

/-- A decimal natural number, and what follows it. -/
def readDecimal (cs : List Char) : Option (Nat × List Char) :=
  match cs.takeWhile isDecimal with
  | [] => none
  | d :: ds =>
    some ((d :: ds).foldl (fun acc c => acc * 10 + (c.toNat - 48)) 0, cs.dropWhile isDecimal)

/-- The decimal form of a byte: 0 to 255 (R80). -/
def readDecimalByte (cs : List Char) : Option (Byte × List Char) :=
  match readDecimal cs with
  | some (n, rest) => if n ≤ 255 then some (BitVec.ofNat 8 n, rest) else none
  | none => none

/-- The operand of `PUSH` (R80): `0x` and two hex digits, a decimal, or a quoted character. -/
def readByte (cs : List Char) : Option (Byte × List Char) :=
  match cs with
  | '\'' :: c :: '\'' :: rest => if isPrintable c then some (asciiByte c, rest) else none
  | '0' :: 'x' :: h :: l :: rest =>
    match hexDigit h, hexDigit l with
    | some x, some y => some (BitVec.ofNat 8 (16 * x + y), rest)
    | _, _ => none
  | _ => readDecimalByte cs

/-- The double quote that opens and closes the operand of `PUSHS`. -/
def quoteChar : Char := Char.ofNat 34

/-- The characters of a `PUSHS` operand up to its closing quote. -/
def readQuoted : List Char → Option (List Byte × List Char)
  | [] => none
  | c :: cs =>
    if c = quoteChar then some ([], cs)
    else if isPrintable c then
      match readQuoted cs with
      | some (bs, rest) => some (asciiByte c :: bs, rest)
      | none => none
    else none

/-- The operand text after a mnemonic: at least one blank stands before it. -/
def operandText : List Char → Option (List Char)
  | [] => none
  | c :: cs => if isBlank c then some (skipBlanks cs) else none

/-- Keep a result only if the line ends after it. -/
def finish (r : Option (Stmt × List Char)) : Option Stmt :=
  match r with
  | some (st, rest) => if atLineEnd rest then some st else none
  | none => none

def readPush (cs : List Char) : Option (Stmt × List Char) :=
  match operandText cs with
  | some o => (readByte o).map fun (b, rest) => (.cmd (.push b), rest)
  | none => none

def readPushs (cs : List Char) : Option (Stmt × List Char) :=
  match operandText cs with
  | some (q :: o) =>
    if q = quoteChar then (readQuoted o).map fun (bs, rest) => (.pushs bs, rest) else none
  | _ => none

/-- `PUSHN n, b` (R81). The operand `b` has the forms `PUSH` has (R80); R81 gives no form for the
count `n`, and the model reads a decimal of any size and nothing else (DESIGN CHOICE, log 11:
safe). -/
def readPushn (cs : List Char) : Option (Stmt × List Char) :=
  match operandText cs with
  | some o =>
    match readDecimal o with
    | some (n, rest) =>
      match skipBlanks rest with
      | ',' :: rest' => (readByte (skipBlanks rest')).map fun (b, tail) => (.pushn n b, tail)
      | _ => none
    | none => none
  | none => none

/-- The statement a mnemonic in capitals and the text after it stand for (R80, R81). -/
def readStmt (name rest : List Char) : Option Stmt :=
  if name = ['I', 'N', 'I', 'T'] then finish (some (.cmd .init, rest))
  else if name = ['P', 'A', 'D'] then finish (some (.cmd .pad, rest))
  else if name = ['S', 'P', 'L', 'I', 'T'] then finish (some (.cmd .split, rest))
  else if name = ['N', 'E', 'X', 'T'] then finish (some (.cmd .next, rest))
  else if name = ['D', 'R', 'A', 'I', 'N'] then finish (some (.drain, rest))
  else if name = ['P', 'R', 'E', 'P'] then finish (some (.prep, rest))
  else if name = ['P', 'U', 'S', 'H'] then finish (readPush rest)
  else if name = ['P', 'U', 'S', 'H', 'S'] then finish (readPushs rest)
  else if name = ['P', 'U', 'S', 'H', 'N'] then finish (readPushn rest)
  else none

/-- One line of assembly (R80): `none` is no line of the syntax, `some none` a blank or comment
line. -/
def parseLine (line : List Char) : Option (Option Stmt) :=
  if atLineEnd line then some none
  else
    let cs := skipBlanks line
    (readStmt (cs.takeWhile Char.isUpper) (cs.dropWhile Char.isUpper)).map some

/-! ### Writing a command -/

def hexChar (n : Nat) : Char := if n < 10 then Char.ofNat (48 + n) else Char.ofNat (55 + n)

/-- A command as R80 writes it, with the hex form of the operand. -/
def render : Instr → List Char
  | .init => ['I', 'N', 'I', 'T']
  | .push b => ['P', 'U', 'S', 'H', ' ', '0', 'x', hexChar (b.toNat / 16), hexChar (b.toNat % 16)]
  | .pad => ['P', 'A', 'D']
  | .split => ['S', 'P', 'L', 'I', 'T']
  | .next => ['N', 'E', 'X', 'T']

/-! ### Running statements -/

/-- The words of one statement in the state it is reached in. -/
def stmtWords (a : Arch) (st : Stmt) : List Word := (expand a st).map encode

/-- Run statements in order, each expanded in the state the earlier ones leave. -/
def runStmts : List Stmt → State → RunEnd
  | [], s => .completed s
  | st :: sts, s =>
    match runWords (stmtWords s.toArch st) s with
    | .completed t => runStmts sts t
    | .refused k r t => .refused k r t
    | .stopped k f t => .stopped k f t

end Sys2Proof.Machine
end

