-- ==== Sys2Proof/Machine/Instances.lean ====
section
/-! DEFINITION. Several instances side by side (20_memory R67, 60_exceptions R170): the product of
independent machines, one step of one of them at a time (log 15). -/

namespace Sys2Proof.Machine

/-- One step of instance `k`; every other instance is left alone. With no such instance nothing
happens. -/
def stepInstance (k : Nat) (ms : List State) : Host.Outcome (List State) Fault Refusal :=
  match ms[k]? with
  | none => .next ms
  | some s =>
    match step s with
    | .next t => .next (ms.set k t)
    | .fault f => .fault f
    | .refused r => .refused r

end Sys2Proof.Machine
end

