-- ==== Sys2Proof/Safety.lean ====
section
/-! DEFINITION. What holds of every state the spec allows (10_state R38), in the terms the claims
use. -/

namespace Sys2Proof.Machine

/-- The buffer is a sequence of exactly `BLEN` bytes (R23, R38 (a)). -/
abbrev BufferIs (a : Arch) : Prop := a.buf.Filled a.blen

/-- What `PD = 1` says of the buffer (R38 (d), 20_memory R59). -/
structure PaddedLayout (a : Arch) : Prop where
  short : a.mlen < 2 ^ 61
  bits : a.bitlen = BitVec.ofNat 64 (8 * a.mlen)
  length : a.blen = a.mlen + 1 + ((55 - (a.mlen : Int)) % 64).toNat + 8
  aligned : a.blen % 64 = 0
  markerAt : a.buf.readByte a.mlen = some 0x80
  fillAt : ∀ i, a.mlen + 1 ≤ i → i < a.blen - 8 → a.buf.readByte i = some 0x00
  lengthAt : ∀ k, k < 8 →
    a.buf.readByte (a.blen - 8 + k) = some (a.bitlen.extractLsb' (56 - 8 * k) 8)

/-- The invariants of 10_state R38, clause by clause, the two reads-zero rules R25 and R26, the
memory's canonical form, and the size of every block delivered (20_memory R57). -/
structure Inv (s : State) : Prop where
  memory : s.buf.wf
  buffer : BufferIs s.toArch
  capacity : ∀ cap, s.cfg.bufCap = some cap → s.blen ≤ cap
  faultErr : s.phase = .fault ↔ s.err ≠ none
  load : s.phase = .load →
    s.pd = false ∧ s.mlen = 0 ∧ s.bitlen = 0 ∧ s.bcnt = 0 ∧ s.bidx = 0 ∧ s.err = none
  done : s.pd = true → PaddedLayout s.toArch
  notDone : s.pd = false → s.mlen = 0 ∧ s.bitlen = 0
  padded : s.phase = .padded → s.pd = true ∧ s.bcnt = 0 ∧ s.bidx = 0
  part : s.phase = .part → s.blen % 64 = 0 ∧ s.bcnt = s.blen / 64 ∧ s.bidx ≤ s.bcnt
  fault : s.phase = .fault →
    s.pd = false ∧ s.bcnt = 0 ∧ s.bidx = 0 ∧ (s.err = some .overflow ∨ s.err = some .align)
  blocks : ∀ r ∈ s.trace, r.wellFormed = true

/-- Two outcomes, of steps from states with the traces `l₁` and `l₂`, say the same of everything but
what came before: the same elements and stream, the same new responses, or the same reason to stop.
Used to say that something makes no difference (R91, R159). -/
def SameFrom (l₁ l₂ : List Response) : Result → Result → Prop
  | .next t₁, .next t₂ =>
    t₁.toArch = t₂.toArch ∧ ∃ rs, t₁.trace = l₁ ++ rs ∧ t₂.trace = l₂ ++ rs
  | .fault f₁, .fault f₂ => f₁ = f₂
  | .refused r₁, .refused r₂ => r₁ = r₂
  | _, _ => False

/-- A run is clean when it completed and its trace holds no `ERR` (R194). The trace is the final
state's whole trace: responses a start state already carries count too (DESIGN CHOICE, log 17:
safe for a claim that a run is clean). -/
def RunEnd.clean : RunEnd → Bool
  | .completed t => cleanTrace t.trace
  | .refused _ _ _ => false
  | .stopped _ _ _ => false

end Sys2Proof.Machine
end

