-- ==== Sys2Proof/Certificates/Slice0/Obligations.lean ====
section
/-! DEFINITION. The statements for the provers, each a rule of spec/ or what follows from named
rules. No statement is about a given program; those over runs hold of every message and state. -/

open Sys2Proof Sys2Proof.Machine

/-! ### Encoding -/

/-- 95_test_vectors V-ENC: words written out from 30_encoding R70 and what they decode to. -/
def Obligations.SpecWordsDecode : Prop :=
  decode 0b0001000000000000 = .ok .init ∧ decode 0b0010000001100001 = .ok (.push 0x61) ∧
  decode 0b0010000011111111 = .ok (.push 0xFF) ∧ decode 0b0011000000000000 = .ok .pad ∧
  decode 0b0100000000000000 = .ok .split ∧ decode 0b0101000000000000 = .ok .next ∧
  decode 0x2180 = .error .mbzNonzero ∧ decode 0x3001 = .error .imm8Nonzero ∧
  decode 0x6000 = .error .reservedOp

/-- 30_encoding R73: the decoder, test by test, the encoder, and that each undoes the other. -/
def Obligations.DecoderAndEncoderAreInverse : Prop :=
  (∀ w : Word,
    (w.extractLsb' 8 4 ≠ 0 → ∃ e, decode w = .error e) ∧
    (w.extractLsb' 8 4 = 0 → w.extractLsb' 12 4 = 2 →
      decode w = .ok (.push (w.extractLsb' 0 8))) ∧
    (w.extractLsb' 8 4 = 0 → w.extractLsb' 12 4 ≠ 2 → w.extractLsb' 0 8 ≠ 0 →
      ∃ e, decode w = .error e) ∧
    (w.extractLsb' 8 4 = 0 → w.extractLsb' 0 8 = 0 → w.extractLsb' 12 4 = 1 →
      decode w = .ok .init) ∧
    (w.extractLsb' 8 4 = 0 → w.extractLsb' 0 8 = 0 → w.extractLsb' 12 4 = 3 →
      decode w = .ok .pad) ∧
    (w.extractLsb' 8 4 = 0 → w.extractLsb' 0 8 = 0 → w.extractLsb' 12 4 = 4 →
      decode w = .ok .split) ∧
    (w.extractLsb' 8 4 = 0 → w.extractLsb' 0 8 = 0 → w.extractLsb' 12 4 = 5 →
      decode w = .ok .next) ∧
    (w.extractLsb' 12 4 = 0 ∨ 6 ≤ (w.extractLsb' 12 4).toNat → ∃ e, decode w = .error e)) ∧
  (encode .init = 0x1000 ∧ encode .pad = 0x3000 ∧ encode .split = 0x4000 ∧
    encode .next = 0x5000 ∧ ∀ b : Byte, encode (.push b) = 0x2000 + b.setWidth 16) ∧
  (∀ i, decode (encode i) = .ok i) ∧
  (∀ w i, decode w = .ok i → encode i = w)

/-- 30_encoding R71: each command is the words its match and mask select, no word is in two rows,
and 260 words are commands. -/
def Obligations.OpcodeMapIsTheTable : Prop :=
  (∀ w : Word,
    (decode w = .ok .init ↔ w &&& 0xFFFF = 0x1000) ∧
    (∀ b, decode w = .ok (.push b) ↔ w &&& 0xFF00 = 0x2000 ∧ b = w.extractLsb' 0 8) ∧
    (decode w = .ok .pad ↔ w &&& 0xFFFF = 0x3000) ∧
    (decode w = .ok .split ↔ w &&& 0xFFFF = 0x4000) ∧
    (decode w = .ok .next ↔ w &&& 0xFFFF = 0x5000)) ∧
  (∀ w : Word, (opcodeTable.filter fun r => r.covers w).length ≤ 1) ∧
  (∀ w : Word, (∃ i, decode w = .ok i) ↔ ∃ r ∈ opcodeTable, r.covers w = true) ∧
  (∃ commands : List Word, commands.Nodup ∧ commands.length = 260 ∧
    ∀ w, w ∈ commands ↔ ∃ i, decode w = .ok i)

/-- 30_encoding R74: a reserved or malformed word has no step: it is refused by name, in every
state. The all-zeros and the all-ones word are among them. The word stands at the head of the
stream in State (log 1). -/
def Obligations.InvalidWordsAreRefused : Prop :=
  (∀ (s : State) (w : Word) (rest : List Event), s.input = .command w :: rest →
    (w.extractLsb' 12 4 = 0 ∨ 6 ≤ (w.extractLsb' 12 4).toNat ∨ w.extractLsb' 8 4 ≠ 0 ∨
      (w.extractLsb' 12 4 ≠ 2 ∧ w.extractLsb' 0 8 ≠ 0)) →
    step s = .refused .invalidEncoding) ∧
  (∀ (s : State) (rest : List Event),
    (s.input = .command 0x0000 :: rest → step s = .refused .invalidEncoding) ∧
    (s.input = .command 0xFFFF :: rest → step s = .refused .invalidEncoding))

/-! ### The step -/

/-- 00_scope R11, 10_state R22, 20_memory R62: a step takes the word at the head of the stream and
runs the command it decodes to. That the stream stands in State is the model's choice (log 1). -/
def Obligations.StepRunsTheDecodedCommand : Prop :=
  ∀ (s : State) (w : Word) (rest : List Event) (i : Instr),
    s.input = .command w :: rest → decode w = .ok i →
    step s = exec i { s with input := rest }

/-- 60_exceptions R168 (idle between commands; the idle step is the model's, log 2) and
70_reset_and_hazards R180 (reset between commands; the reset event is the model's, log 3): an idle
step changes nothing, a reset puts the nine elements at their reset values and gives no response. -/
def Obligations.IdleHoldsAndResetClears : Prop :=
  (∀ s : State, s.input = [] → step s = .next s) ∧
  (∀ (s : State) (rest : List Event), s.input = .reset :: rest →
    ∃ t, step s = .next t ∧ t.toArch = State.reset.toArch ∧ t.cfg = s.cfg ∧ t.input = rest ∧
      t.trace = s.trace)

/-- 10_state R39: the reset values, and `INIT` produces the same state. -/
def Obligations.ResetValues : Prop :=
  (State.reset.buf = [] ∧ State.reset.blen = 0 ∧ State.reset.mlen = 0 ∧
    State.reset.bitlen = 0 ∧ State.reset.bcnt = 0 ∧ State.reset.bidx = 0 ∧
    State.reset.phase = .load ∧ State.reset.pd = false ∧ State.reset.err = none ∧
    State.reset.status = 0x00) ∧
  (∀ c : Config, (State.resetWith c).toArch = State.reset.toArch) ∧
  (∀ s : State, ∃ t, exec .init s = .next t ∧ t.toArch = State.reset.toArch)

/-! ### INIT and PUSH -/

/-- 40_message_load R90: `INIT` completes in every state with every element cleared. The parameter
and the command stream, which are no elements, stay. -/
def Obligations.InitClearsEverything : Prop :=
  ∀ s : State, exec .init s = .next
    { s with
      buf := [], blen := 0, mlen := 0, bitlen := 0, bcnt := 0, bidx := 0,
      phase := .load, pd := false, err := none, trace := s.trace ++ [.ack] }

/-- 40_message_load R91: two runs that differ only in what happened before an `INIT` produce the
same responses after it, for any number of steps. -/
def Obligations.InitErasesHistory : Prop :=
  ∀ (s₁ s₂ t₁ t₂ : State), s₁.cfg = s₂.cfg → s₁.input = s₂.input →
    exec .init s₁ = .next t₁ → exec .init s₂ = .next t₂ →
    ∀ k, SameFrom t₁.trace t₂.trace (core.run k t₁) (core.run k t₂)

/-- 40_message_load R92 and R93: `PUSH` in `LOAD` with room appends its byte at `BLEN`, whatever the
byte, changes nothing else and answers `ACK`; in any other phase it is refused, and in `LOAD` at a
finite `BUF_CAP` it is refused for capacity. It never faults. -/
def Obligations.PushAppendsOneByte : Prop :=
  ∀ (b : Byte) (s : State),
    (s.phase = .load → s.cfg.bufCap ≠ some s.blen →
      ∃ t, exec (.push b) s = .next t ∧
        t.buf.readByte (appendAddr s.toArch) = some b ∧
        (∀ a, a ≠ appendAddr s.toArch → t.buf.readByte a = s.buf.readByte a) ∧
        (BufferIs s.toArch → BufferIs t.toArch ∧ t.buf.bytes = s.buf.bytes ++ [b]) ∧
        t.blen = s.blen + 1 ∧ t.mlen = s.mlen ∧ t.bitlen = s.bitlen ∧ t.bcnt = s.bcnt ∧
        t.bidx = s.bidx ∧ t.phase = .load ∧ t.pd = s.pd ∧ t.err = s.err ∧ t.cfg = s.cfg ∧
        t.input = s.input ∧ t.trace = s.trace ++ [.ack]) ∧
    (s.phase ≠ .load → exec (.push b) s = .refused .wrongPhase) ∧
    (s.phase = .load → s.cfg.bufCap = some s.blen → exec (.push b) s = .refused .capacity)

/-! ### PAD -/

/-- 41_pad R100: `PAD`, arm by arm: the padded message with what it latches and what it leaves, the
overflow fault, and the two refusals. -/
def Obligations.PadReplacesMessageByPadded : Prop :=
  ∀ s : State, BufferIs s.toArch →
    (s.phase ≠ .load → exec .pad s = .refused .wrongPhase) ∧
    (s.phase = .load → 2 ^ 61 ≤ s.blen → exec .pad s = .next
      { s with err := some .overflow, phase := .fault, trace := s.trace ++ [.err .overflow] }) ∧
    (s.phase = .load → s.blen < 2 ^ 61 →
      (∃ cap, s.cfg.bufCap = some cap ∧
        cap < s.blen + 9 + ((55 - (s.blen : Int)) % 64).toNat) →
      exec .pad s = .refused .capacity) ∧
    (s.phase = .load → s.blen < 2 ^ 61 →
      (∀ cap, s.cfg.bufCap = some cap →
        s.blen + 9 + ((55 - (s.blen : Int)) % 64).toNat ≤ cap) →
      ∃ t, exec .pad s = .next t ∧
        t.buf.bytes = s.buf.bytes ++ [0x80] ++
          List.replicate ((55 - (s.blen : Int)) % 64).toNat 0x00 ++
          be64 (BitVec.ofNat 64 (8 * s.blen)) ∧
        BufferIs t.toArch ∧
        (∀ a, a < appendAddr s.toArch ∨
            appendAddr s.toArch + 9 + ((55 - (s.blen : Int)) % 64).toNat ≤ a →
          t.buf.readByte a = s.buf.readByte a) ∧
        t.blen = s.blen + 9 + ((55 - (s.blen : Int)) % 64).toNat ∧
        t.mlen = s.blen ∧ t.bitlen = BitVec.ofNat 64 (8 * s.blen) ∧ t.bcnt = s.bcnt ∧
        t.bidx = s.bidx ∧ t.phase = .padded ∧ t.pd = true ∧ t.err = s.err ∧ t.cfg = s.cfg ∧
        t.input = s.input ∧ t.trace = s.trace ++ [.ack])

/-- 41_pad R109: `pad` as a function, whose result is whole blocks; a successful `PAD` is
`BUF <- pad(BUF)`; and with an unbounded buffer, so that only `pad` decides, `PAD` succeeds or
faults just as `pad` does. -/
def Obligations.PadCommandRealisesPadFunction : Prop :=
  (∀ m : List Byte, m.length < 2 ^ 61 →
    pad m = .ok (m ++ [0x80] ++ List.replicate ((55 - (m.length : Int)) % 64).toNat 0x00 ++
      be64 (BitVec.ofNat 64 (8 * m.length)))) ∧
  (∀ m p : List Byte, pad m = .ok p → p.length % 64 = 0) ∧
  (∀ s t : State, BufferIs s.toArch → exec .pad s = .next t → t.trace = s.trace ++ [.ack] →
    pad s.buf.bytes = .ok t.buf.bytes) ∧
  (∀ s : State, BufferIs s.toArch → s.phase = .load → s.cfg.bufCap = none →
    match pad s.buf.bytes with
    | .ok p => ∃ t, exec .pad s = .next t ∧ t.buf.bytes = p ∧ t.trace = s.trace ++ [.ack]
    | .error k => exec .pad s = .next
        { s with err := some k, phase := .fault, trace := s.trace ++ [.err k] })

/-- 41_pad R102 (and R101's exactness): the bit length fits 64 bits exactly when the message is
shorter than 2^61 bytes; `PAD` faults with `OverflowError` exactly when it does not fit, and
latches the true bit length when it does. -/
def Obligations.OverflowExactlyWhenBitLengthTooLong : Prop :=
  (∀ n : Nat, 8 * n ≤ 2 ^ 64 - 1 ↔ n ≤ 2 ^ 61 - 1) ∧
  (∀ s t : State, exec .pad s = .next t →
    (t.trace = s.trace ++ [.err .overflow] ↔ ¬ 8 * s.blen ≤ 2 ^ 64 - 1)) ∧
  (∀ s : State, s.phase = .load → 2 ^ 61 ≤ s.blen → ∃ t, exec .pad s = .next t ∧
    t.trace = s.trace ++ [.err .overflow] ∧ t.err = some .overflow ∧ t.phase = .fault ∧
    t.buf = s.buf ∧ t.blen = s.blen) ∧
  (∀ s t : State, exec .pad s = .next t → t.trace = s.trace ++ [.ack] →
    t.bitlen.toNat = 8 * s.blen)

/-- 41_pad R111: the postcondition check never fails. -/
def Obligations.PaddingInvariantErrorIsDead : Prop :=
  (∀ n : Nat, (n + 9 + ((55 - (n : Int)) % 64).toNat) % 64 = 0) ∧
  (∀ (i : Instr) (s t : State), BufferIs s.toArch → exec i s = .next t →
    t.trace ≠ s.trace ++ [.err .padinv])

/-- 41_pad R105: what follows the message is the marker, zero bytes and the length field, and the
number of zero bytes is the least for which the document's loop condition holds. -/
def Obligations.ZeroFillIsTheLoopsCount : Prop :=
  ∀ n : Nat,
    padTail n = [0x80] ++ List.replicate (zeroFill n) 0x00 ++ be64 (bitLength n) ∧
    IsLeast { k : Nat | (8 * (n + 1 + k) + 64) % 512 = 0 } (zeroFill n)

/-- 41_pad R106: the spill table, with where the length field lands. -/
def Obligations.SpillTable : Prop :=
  ∀ n : Nat,
    (n % 64 ≤ 55 → zeroFill n = 55 - n % 64 ∧ (padTail n).length + n = 64 * (n / 64 + 1) ∧
      (n + 1 + zeroFill n) / 64 = n / 64) ∧
    (56 ≤ n % 64 → zeroFill n = 119 - n % 64 ∧ (padTail n).length + n = 64 * (n / 64 + 2) ∧
      (n + 1 + zeroFill n) / 64 = n / 64 + 1) ∧
    (n + 1 + zeroFill n) % 64 = 56

/-- 41_pad R108, whose byte order the spec marks as general knowledge (its G1; log 10): the encoder
puts the most significant byte first, and eight bytes read big-endian give the value back. -/
def Obligations.LengthEncoderIsBigEndian : Prop :=
  (∀ v : U64, (be64 v).length = 8 ∧
    (∀ k, k < 8 → (be64 v)[k]? = some (v.extractLsb' (56 - 8 * k) 8)) ∧
    beValue (be64 v) = v.toNat) ∧
  be64 0x0102030405060708 = [0x01, 0x02, 0x03, 0x04, 0x05, 0x06, 0x07, 0x08]

/-- 41_pad R114 with R107: alignment, length recoverability (its byte order is the spec's G1, log 10),
minimality, marker placement, prefix, fill, and that `pad` loses nothing of the message. -/
def Obligations.PadProperties : Prop :=
  (∀ m p : List Byte, pad m = .ok p →
    p.length % 64 = 0 ∧
    beValue (p.drop (p.length - 8)) = 8 * m.length ∧
    (p.length = 64 * ((m.length + 8) / 64 + 1) ∧
      ∀ l, l % 64 = 0 → m.length + 9 ≤ l → p.length ≤ l) ∧
    p[m.length]? = some 0x80 ∧
    p.take m.length = m ∧
    (∀ a, m.length + 1 ≤ a → a < p.length - 8 → p[a]? = some 0x00)) ∧
  (∀ m₁ m₂ p : List Byte, pad m₁ = .ok p → pad m₂ = .ok p → m₁ = m₂)

/-! ### SPLIT and NEXT -/

/-- 42_split R130 (R131, R132, R136 with it): `SPLIT` in every phase and for every length. -/
def Obligations.SplitChecksAlignmentAndOpens : Prop :=
  ∀ s : State,
    (s.phase = .fault → exec .split s = .refused .wrongPhase) ∧
    (s.phase ≠ .fault → s.blen % 64 ≠ 0 → exec .split s = .next
      { s with err := some .align, phase := .fault, trace := s.trace ++ [.err .align] }) ∧
    (s.phase ≠ .fault → s.blen % 64 = 0 → exec .split s = .next
      { s with bcnt := s.blen / 64, bidx := 0, phase := .part, trace := s.trace ++ [.ack] })

/-- 42_split R137: `NEXT` delivers the 64 bytes at `64 * BIDX` with their index and the last bit and
advances `BIDX` by one, or answers `END` and changes nothing; it never reads outside the buffer. -/
def Obligations.NextDeliversTheBlockOrEnd : Prop :=
  ∀ s : State,
    (s.phase ≠ .part → exec .next s = .refused .wrongPhase) ∧
    (s.phase = .part → s.bidx = s.bcnt →
      exec .next s = .next { s with trace := s.trace ++ [.endSeq] }) ∧
    (s.phase = .part → s.bidx ≠ s.bcnt → BufferIs s.toArch → 64 * s.bidx + 64 ≤ s.blen →
      ∃ d : List Byte, d.length = 64 ∧
        (∀ j, j < 64 → d[j]? = s.buf.readByte (64 * s.bidx + j)) ∧
        exec .next s = .next
          { s with
            bidx := s.bidx + 1
            trace := s.trace ++ [.blk s.bidx (s.bidx + 1 == s.bcnt) d] }) ∧
    (Inv s → ∀ f, exec .next s ≠ .fault f)

/-- 42_split R137 ("the read is always inside the buffer"), 20_memory R56: in every state the spec
allows, a `NEXT` in `PART` completes. -/
def Obligations.NextNeverLeavesTheBuffer : Prop :=
  ∀ s : State, Inv s → s.phase = .part →
    ∃ t r, exec .next s = .next t ∧ t.trace = s.trace ++ [r] ∧ r.wellFormed = true ∧
      t.bidx ≤ t.bcnt ∧ t.buf = s.buf ∧ t.blen = s.blen

/-- 42_split R140: the partition loses nothing, every block has 64 bytes, and `splitBlocks(pad(m))`
never fails, ends with the length field and holds the marker where the message ends. -/
def Obligations.SplitBlocksProperties : Prop :=
  (∀ s bs, splitBlocks s = .ok bs →
    bs.flatten = s ∧ (∀ b ∈ bs, b.length = 64) ∧ bs.length = s.length / 64 ∧
    ∀ i j, i < bs.length → j < 64 → (bs[i]?.bind fun b => b[j]?) = s[64 * i + j]?) ∧
  (∀ m : List Byte, m.length < 2 ^ 61 → ∃ p bs, pad m = .ok p ∧ splitBlocks p = .ok bs ∧
    bs.length = (m.length + 8) / 64 + 1 ∧
    (∃ last, bs.getLast? = some last ∧
      last.drop 56 = be64 (BitVec.ofNat 64 (8 * m.length))) ∧
    ∃ blk, bs[m.length / 64]? = some blk ∧ blk[m.length % 64]? = some 0x80)

/-- 42_split R139: from a non-fault state with buffer `s`, `SPLIT` and then `NEXT` until `END`
answers `ACK`, the blocks of `splitBlocks(s)` in order with their indices, and `END`; or
`ERR(ALIGN)`, after which every `NEXT` is refused. -/
def Obligations.SplitAndNextRealiseSplitBlocks : Prop :=
  (∀ s : List Byte,
    (s.length % 64 = 0 → splitBlocks s =
      .ok ((List.range (s.length / 64)).map fun i => (s.drop (64 * i)).take 64)) ∧
    (s.length % 64 ≠ 0 → splitBlocks s = .error .align)) ∧
  ∀ s : State, BufferIs s.toArch → s.phase ≠ .fault →
    match splitBlocks s.buf.bytes with
    | .ok bs =>
      ∃ t, runWords (encode .split :: List.replicate (bs.length + 1) (encode .next)) s =
          .completed t ∧
        t.trace = s.trace ++ .ack ::
          (bs.mapIdx fun i d => .blk i (i + 1 == bs.length) d) ++ [.endSeq] ∧
        traceBlocks t.trace = traceBlocks s.trace ++ bs
    | .error k =>
      k = .align ∧ ∃ t, runWords [encode .split] s = .completed t ∧
        t.trace = s.trace ++ [.err .align] ∧
        ∀ n, runWords (encode .split :: List.replicate (n + 1) (encode .next)) s =
          .refused 1 .wrongPhase t

/-- 42_split R135: `SPLIT` in `PART` is legal at any point and takes the sequence back to block 0;
alignment and count come out as before. -/
def Obligations.SplitRestartsTheSequence : Prop :=
  ∀ s : State, Inv s → s.phase = .part →
    ∃ t, exec .split s = .next t ∧ t.bidx = 0 ∧ t.bcnt = s.bcnt ∧ t.buf = s.buf ∧
      t.phase = .part ∧ t.trace = s.trace ++ [.ack] ∧
      (0 < s.bcnt → ∃ u d, exec .next t = .next u ∧ u.bidx = 1 ∧
        s.buf.readBytes 0 64 = some d ∧
        u.trace = t.trace ++ [.blk 0 (1 == s.bcnt) d])

/-- 42_split R134: what `SPLIT` leaves alone, and what it seals: a partitioned buffer is changed by
no command but `INIT`, which is also the only command that reopens it. -/
def Obligations.PartitionSealsTheBuffer : Prop :=
  (∀ s t : State, exec .split s = .next t →
    t.buf = s.buf ∧ t.blen = s.blen ∧ t.mlen = s.mlen ∧ t.bitlen = s.bitlen ∧ t.pd = s.pd) ∧
  (∀ s t : State, exec .split s = .next t → t.trace = s.trace ++ [.ack] → t.phase = .part) ∧
  (∀ (s : State) (b : Byte), s.phase = .part →
    exec (.push b) s = .refused .wrongPhase ∧ exec .pad s = .refused .wrongPhase) ∧
  (∀ (i : Instr) (s t : State), s.phase = .part → i ≠ .init → exec i s = .next t →
    t.buf = s.buf ∧ t.blen = s.blen ∧ t.phase ≠ .load ∧ t.phase ≠ .padded) ∧
  (∀ s : State, ∃ t, exec .init s = .next t ∧ t.phase = .load ∧ t.buf = [] ∧ t.blen = 0)

/-! ### Phases, faults and refusals -/

/-- 10_state R30: the phase transition table. The first part says where a command is refused for
its phase, the second which phase an accepted command leaves. -/
def Obligations.PhaseTransitionTable : Prop :=
  (∀ (i : Instr) (s : State), exec i s = .refused .wrongPhase ↔
    match i with
    | .init => False
    | .push _ => s.phase = .padded ∨ s.phase = .part ∨ s.phase = .fault
    | .pad => s.phase = .padded ∨ s.phase = .part ∨ s.phase = .fault
    | .split => s.phase = .fault
    | .next => s.phase = .load ∨ s.phase = .padded ∨ s.phase = .fault) ∧
  (∀ (i : Instr) (s t : State), exec i s = .next t →
    match i with
    | .init => t.phase = .load
    | .push _ => t.phase = .load
    | .pad => t.phase = .padded ∨
        (t.phase = .fault ∧ (t.err = some .overflow ∨ t.err = some .padinv))
    | .split => (s.blen % 64 = 0 ∧ t.phase = .part) ∨
        (s.blen % 64 ≠ 0 ∧ t.phase = .fault ∧ t.err = some .align)
    | .next => t.phase = .part)

/-- 60_exceptions R155: taking a fault writes `ERR` and `PHASE`, answers `ERR`, and nothing else. -/
def Obligations.FaultsArePrecise : Prop :=
  ∀ (i : Instr) (s t : State) (k : ErrKind), exec i s = .next t →
    t.trace = s.trace ++ [.err k] →
    t = { s with err := some k, phase := .fault, trace := s.trace ++ [.err k] }

/-- 60_exceptions R150: the three faults, their codes, who raises them and when, in every state the
spec allows; `PADINV` never, `ALIGN` from `LOAD` only. -/
def Obligations.ExactlyTheThreeFaults : Prop :=
  (ErrKind.overflow.code = 1 ∧ ErrKind.padinv.code = 2 ∧ ErrKind.align.code = 3 ∧
    errCode none = 0) ∧
  (∀ (i : Instr) (s : State) (k : ErrKind), Inv s →
    ((∃ t, exec i s = .next t ∧ t.trace = s.trace ++ [.err k]) ↔
      (i = .pad ∧ k = .overflow ∧ s.phase = .load ∧ 2 ^ 61 ≤ s.blen) ∨
      (i = .split ∧ k = .align ∧ s.phase = .load ∧ s.blen % 64 ≠ 0)))

/-- 60_exceptions R157: in `FAULT` every command but `INIT` is refused, and `INIT` clears `ERR`,
empties the buffer and returns to `LOAD`. -/
def Obligations.OnlyInitLeavesFault : Prop :=
  ∀ (i : Instr) (s : State), s.phase = .fault →
    (i ≠ .init → exec i s = .refused .wrongPhase) ∧
    (i = .init → ∃ t, exec i s = .next t ∧ t.err = none ∧ t.buf = [] ∧ t.blen = 0 ∧
      t.phase = .load)

/-- 60_exceptions R160 with the order of R158: a command word is refused exactly when it is invalid,
or not legal in the phase, or (with a finite `BUF_CAP`) would exceed the buffer; each for its own
reason. The bound `BLEN < 2^61` of the last case is R158's: the overflow fault comes first. -/
def Obligations.RefusedExactlyWhen : Prop :=
  ∀ (s : State) (w : Word) (rest : List Event) (r : Refusal), s.input = .command w :: rest →
    (step s = .refused r ↔
      (r = .invalidEncoding ∧ ∀ i, decode w ≠ .ok i) ∨
      (r = .wrongPhase ∧ ((∃ b, decode w = .ok (.push b) ∧ s.phase ≠ .load) ∨
        (decode w = .ok .pad ∧ s.phase ≠ .load) ∨
        (decode w = .ok .split ∧ s.phase = .fault) ∨
        (decode w = .ok .next ∧ s.phase ≠ .part))) ∨
      (r = .capacity ∧ s.phase = .load ∧ ∃ cap, s.cfg.bufCap = some cap ∧
        ((∃ b, decode w = .ok (.push b) ∧ s.blen = cap) ∨
         (decode w = .ok .pad ∧ s.blen < 2 ^ 61 ∧ cap < s.blen + (padTail s.blen).length))))

/-- 30_encoding R76: every accepted command answers exactly one response, of the kind the table
gives. That `BIDX <= BCNT` is 10_state R28. -/
def Obligations.OneResponsePerCommand : Prop :=
  ∀ (i : Instr) (s t : State), s.bidx ≤ s.bcnt → exec i s = .next t →
    ∃ r, t.trace = s.trace ++ [r] ∧
      match i with
      | .init => r = .ack
      | .push _ => r = .ack
      | .pad => r = .ack ∨ r = .err .overflow ∨ r = .err .padinv
      | .split => r = .ack ∨ r = .err .align
      | .next => (s.bidx < s.bcnt ∧ ∃ last d, r = .blk s.bidx last d) ∨
          (s.bidx = s.bcnt ∧ r = .endSeq)

/-- 70_reset_and_hazards R193: over any list of command words, each accepted one appends exactly one
response, a refused one appends nothing, and nothing is removed. -/
def Obligations.TraceGrowsByOnePerAcceptedWord : Prop :=
  ∀ (ws : List Word) (s : State),
    (∀ t, runWords ws s = .completed t →
      ∃ rs, t.trace = s.trace ++ rs ∧ rs.length = ws.length) ∧
    (∀ k r t, runWords ws s = .refused k r t →
      k < ws.length ∧ (∃ rs, t.trace = s.trace ++ rs ∧ rs.length = k) ∧
      runWords (ws.take k) s = .completed t)

/-! ### Frames and whole-machine rules -/

/-- 10_state R34, its writing entries, and 20_memory R51: what each command leaves unchanged when it
answers a next state. The bytes stored to are those at `appendAddr` onward, one for `PUSH` and the
padding for `PAD`. -/
def Obligations.CommandFrames : Prop :=
  ∀ (i : Instr) (s t : State), exec i s = .next t →
    t.cfg = s.cfg ∧ t.input = s.input ∧
    match i with
    | .init => True
    | .push _ =>
      t.mlen = s.mlen ∧ t.bitlen = s.bitlen ∧ t.bcnt = s.bcnt ∧ t.bidx = s.bidx ∧
      t.phase = s.phase ∧ t.pd = s.pd ∧ t.err = s.err ∧
      ∀ a, a ≠ appendAddr s.toArch → t.buf.readByte a = s.buf.readByte a
    | .pad =>
      t.bcnt = s.bcnt ∧ t.bidx = s.bidx ∧ (t.trace = s.trace ++ [.ack] → t.err = s.err) ∧
      (t.trace ≠ s.trace ++ [.ack] →
        t.buf = s.buf ∧ t.blen = s.blen ∧ t.mlen = s.mlen ∧ t.bitlen = s.bitlen ∧ t.pd = s.pd) ∧
      ∀ a, a < appendAddr s.toArch ∨ appendAddr s.toArch + (padTail s.blen).length ≤ a →
        t.buf.readByte a = s.buf.readByte a
    | .split =>
      t.buf = s.buf ∧ t.blen = s.blen ∧ t.mlen = s.mlen ∧ t.bitlen = s.bitlen ∧ t.pd = s.pd ∧
      (t.trace = s.trace ++ [.ack] → t.err = s.err) ∧
      (t.trace ≠ s.trace ++ [.ack] → t.bcnt = s.bcnt ∧ t.bidx = s.bidx) ∧
      ∀ a, t.buf.readByte a = s.buf.readByte a
    | .next =>
      t.buf = s.buf ∧ t.blen = s.blen ∧ t.mlen = s.mlen ∧ t.bitlen = s.bitlen ∧
      t.bcnt = s.bcnt ∧ t.phase = s.phase ∧ t.pd = s.pd ∧ t.err = s.err ∧
      ∀ a, t.buf.readByte a = s.buf.readByte a

/-- 10_state R25: once the padding is done no command but `INIT` changes the buffer, the message
length or the bit length. -/
def Obligations.MessageImmutableAfterPad : Prop :=
  ∀ (i : Instr) (s t : State), Inv s → s.pd = true → i ≠ .init → exec i s = .next t →
    t.pd = true ∧ t.buf = s.buf ∧ t.blen = s.blen ∧ t.mlen = s.mlen ∧ t.bitlen = s.bitlen

/-- 10_state R38: every step keeps the invariants of every reachable state. -/
def Obligations.StepKeepsInvariants : Prop :=
  ∀ s t : State, Inv s → step s = .next t → Inv t

/-- 10_state R38, R39: they hold after reset, whatever `BUF_CAP` is. -/
def Obligations.ResetMeetsInvariants : Prop :=
  ∀ c : Config, Inv (State.resetWith c)

/-- 70_reset_and_hazards R192: in a state the spec allows, a step completes or is refused; the model
never stops otherwise. -/
def Obligations.AllowedStatesNeverStop : Prop :=
  ∀ s : State, Inv s → (∃ t, step s = .next t ∧ Inv t) ∨ ∃ r, step s = .refused r

/-- 70_reset_and_hazards R186 with 10_state R38 (d): with `PD = 1` the buffer is `pad(m)` for the
message of `MLEN` bytes, and its blocks are `splitBlocks(pad(m))`. -/
def Obligations.PadDoneMeansPaddedMessage : Prop :=
  ∀ s : State, Inv s → s.pd = true →
    (s.buf.bytes.take s.mlen).length = s.mlen ∧
    pad (s.buf.bytes.take s.mlen) = .ok s.buf.bytes ∧
    ∃ bs, splitBlocks s.buf.bytes = .ok bs ∧ bs.length = s.blen / 64

/-- 60_exceptions R159: whether a command completes, faults or is refused, what it writes and what
it answers, is a function of the nine elements, `BUF_CAP` and the command. -/
def Obligations.OutcomeDependsOnElementsAlone : Prop :=
  ∀ (i : Instr) (s₁ s₂ : State), s₁.toArch = s₂.toArch → s₁.cfg = s₂.cfg →
    SameFrom s₁.trace s₂.trace (exec i s₁) (exec i s₂)

/-! ### Status, responses, syntax, instances -/

/-- 10_state R33, with the codes of R29 and R32: where each field of `STATUS` stands, and that the
status port (R41) shows it with the five data registers. -/
def Obligations.StatusFields : Prop :=
  (Phase.load.code = 0 ∧ Phase.padded.code = 1 ∧ Phase.part.code = 2 ∧ Phase.fault.code = 3) ∧
  ∀ a : Arch,
    a.status.extractLsb' 0 2 = a.phase.code ∧ a.status.extractLsb' 2 1 = BitVec.ofBool a.pd ∧
    a.status.extractLsb' 3 1 = 0 ∧ a.status.extractLsb' 4 2 = errCode a.err ∧
    a.status.extractLsb' 6 2 = 0 ∧
    a.statusPort = ⟨a.status, a.blen, a.mlen, a.bitlen, a.bcnt, a.bidx⟩

/-- 30_encoding R78: the response kinds' codes, and the fields of a block response: its index is the
sequence position, `last` is set exactly on the last block, and its 64 bytes are the buffer's. -/
def Obligations.ResponseRecordFields : Prop :=
  (Response.ack.code = 0 ∧ (∀ n l d, (Response.blk n l d).code = 1) ∧ Response.endSeq.code = 2 ∧
    (∀ k, (Response.err k).code = 3) ∧ ErrKind.overflow.code = 1 ∧ ErrKind.padinv.code = 2 ∧
    ErrKind.align.code = 3) ∧
  (∀ (i : Instr) (s t : State) (index : Nat) (last : Bool) (data : List Byte),
    exec i s = .next t → t.trace = s.trace ++ [.blk index last data] →
    i = .next ∧ index = s.bidx ∧ (last = true ↔ index + 1 = s.bcnt) ∧ data.length = 64 ∧
    ∀ j, j < 64 → data[j]? = s.buf.readByte (64 * index + j))

/-- 95_test_vectors V-STATUS (from 10_state R33, R38): the only `STATUS` values of allowed states. -/
def Obligations.OnlySixStatusValues : Prop :=
  ∀ s : State, Inv s → s.status ∈ [0x00, 0x05, 0x02, 0x06, 0x13, 0x33]

/-- 30_encoding R79: byte `j` of a block stands at bits `[511 - 8j : 504 - 8j]` of the flat value,
and an index that fits is zero-extended to 64 bits. -/
def Obligations.FlatBlockByteOrder : Prop :=
  (∀ d : List Byte, d.length = 64 → ∀ j, j < 64 →
    d[j]? = some ((flatData d).extractLsb' (504 - 8 * j) 8)) ∧
  (∀ n, n < 2 ^ 64 → ∃ x, flatIndex n = some x ∧ x.toNat = n)

/-- 30_encoding R81: `INIT`, `PUSHS "m"`, `PREP` is the whole of `splitBlocks(pad(m))`: from any
state with an unbounded buffer its block responses, in order, carry the blocks, and no response is
an error. -/
def Obligations.PrepIsSplitBlocksOfPad : Prop :=
  ∀ (s : State) (m : List Byte), s.cfg.bufCap = none → m.length < 2 ^ 61 →
    ∃ t rs p bs, runStmts [.cmd .init, .pushs m, .prep] s = .completed t ∧
      t.trace = s.trace ++ rs ∧ cleanTrace rs = true ∧
      pad m = .ok p ∧ splitBlocks p = .ok bs ∧ traceBlocks rs = bs ∧
      t.phase = .part ∧ t.pd = true ∧ t.bidx = t.bcnt

/-- 70_reset_and_hazards R191: loading, padding, partitioning and draining a message of `n` bytes
takes `n + 4 + (n + 8) div 64` commands. -/
def Obligations.CommandCountOfOneMessage : Prop :=
  ∀ (a b : Arch) (m : List Byte), b.blen = m.length →
    (expand a (.pushs m)).length + (expand b .prep).length =
      m.length + 4 + (m.length + 8) / 64

/-- 30_encoding R80: a command written in the syntax reads back as that command; so does `PUSH` of a
quoted printable character. -/
def Obligations.AssemblyReadsBack : Prop :=
  (∀ i : Instr, parseLine (render i) = some (some (.cmd i))) ∧
  (∀ c : Char, isPrintable c = true →
    parseLine ['P', 'U', 'S', 'H', ' ', '\'', c, '\''] =
      some (some (.cmd (.push (BitVec.ofNat 8 c.toNat)))))

/-- 20_memory R67, 60_exceptions R170: a step of one instance changes no other. -/
def Obligations.InstancesAreIndependent : Prop :=
  ∀ (k : Nat) (ms ms' : List State), stepInstance k ms = .next ms' →
    ms'.length = ms.length ∧ (∀ j, j ≠ k → ms'[j]? = ms[j]?) ∧
    (∀ s, ms[k]? = some s → ∃ t, step s = .next t ∧ ms'[k]? = some t)
end

