-- ==== Sys2Proof/Laws/Decode.lean ====
section
/-! SUPPORT. Words and fields are the same thing (30_encoding R70), and what the decoder read is
what the fields say. -/

namespace Sys2Proof

theorem toWord_ofWord (w : Word) : (Fields.ofWord w).toWord = w := by
  apply BitVec.eq_of_getLsbD_eq
  intro i hi
  simp only [Fields.toWord, Fields.ofWord, BitVec.getLsbD_append, BitVec.getLsbD_extractLsb']
  by_cases h : i < 8
  · simp [h]
  · by_cases h' : i - 8 < 4
    · simp [h, h', show 8 + (i - 8) = i by omega]
    · simp [h, h', show 12 + (i - 8 - 4) = i by omega]; omega

theorem ofWord_toWord (f : Fields) : Fields.ofWord f.toWord = f := by
  cases f
  simp only [Fields.toWord, Fields.ofWord, Fields.mk.injEq]
  refine ⟨?_, ?_, ?_⟩
  all_goals
    apply BitVec.eq_of_getLsbD_eq
    intro i hi
    simp only [BitVec.getLsbD_append, BitVec.getLsbD_extractLsb']
    grind

/-- The decoder answers only instructions whose fields it was given. -/
theorem decodeFields_ok {f : Fields} {i : Instr} (h : decodeFields f = .ok i) :
    encodeFields i = f := by
  cases f
  unfold decodeFields at h
  split_ifs at h <;> cases h <;> simp_all [encodeFields]

end Sys2Proof
end

