-- ==== Sys2Proof/Laws/Memory.lean ====
section
/-! SUPPORT. The laws of the buffer: read after write, writes keep the canonical form, and what an
append at the end of a gap-free buffer gives (20_memory R51, R55). -/

namespace Sys2Proof.Machine.Memory

@[simp] theorem readByte_nil (a : Nat) : readByte [] a = none := rfl

theorem readByte_cons (c : Host.Cell) (m : Memory) (a : Nat) :
    readByte (c :: m) a = if c.1 = a then some c.2 else readByte m a := rfl

theorem readByte_writeByte (m : Memory) (a x : Nat) (b : Byte) :
    readByte (writeByte m a b) x = if x = a then some b else readByte m x := by
  induction m with
  | nil => simp [writeByte, readByte_cons, eq_comm]
  | cons c m ih =>
    rw [writeByte]
    split_ifs with h₁ h₂ h₃
    all_goals simp only [readByte_cons, ih]
    all_goals grind

@[simp] theorem readByte_writeByte_same (m : Memory) (a : Nat) (b : Byte) :
    readByte (writeByte m a b) a = some b := by simp [readByte_writeByte]

theorem readByte_writeByte_other (m : Memory) {a x : Nat} (b : Byte) (h : x ≠ a) :
    readByte (writeByte m a b) x = readByte m x := by simp [readByte_writeByte, h]

/-- Every key of a written buffer is the written address or an old key. -/
theorem mem_writeByte_fst {m : Memory} {a : Nat} {b : Byte} {c : Host.Cell}
    (h : c ∈ writeByte m a b) : c.1 = a ∨ c ∈ m := by
  induction m with
  | nil => simp_all [writeByte]
  | cons d m ih =>
    rw [writeByte] at h
    split_ifs at h <;> grind

theorem writeByte_wf {m : Memory} (h : m.wf) (a : Nat) (b : Byte) : (writeByte m a b).wf := by
  induction m with
  | nil => simp [writeByte, wf]
  | cons c m ih =>
    obtain ⟨hc, hm⟩ := List.pairwise_cons.1 h
    rw [writeByte]
    split_ifs with h₁ h₂
    · refine List.pairwise_cons.2 ⟨fun d hd => ?_, h⟩
      rcases List.mem_cons.1 hd with rfl | hd
      · exact h₁
      · exact lt_trans h₁ (hc d hd)
    · subst h₂
      exact List.pairwise_cons.2 ⟨hc, hm⟩
    · refine List.pairwise_cons.2 ⟨fun d hd => ?_, ih hm⟩
      rcases mem_writeByte_fst hd with hd | hd
      · omega
      · exact hc d hd

theorem writeBytes_wf {m : Memory} (h : m.wf) (a : Nat) (bs : List Byte) :
    (writeBytes m a bs).wf := by
  induction bs generalizing m a with
  | nil => exact h
  | cons b bs ih => exact ih (writeByte_wf h a b) (a + 1)

/-- A write of several bytes leaves every address outside them alone. -/
theorem readByte_writeBytes_outside (m : Memory) (a : Nat) (bs : List Byte) {x : Nat}
    (h : x < a ∨ a + bs.length ≤ x) : readByte (writeBytes m a bs) x = readByte m x := by
  induction bs generalizing m a with
  | nil => rfl
  | cons b bs ih =>
    rw [List.length_cons] at h
    rw [writeBytes, ih _ _ (by omega), readByte_writeByte_other _ _ (by omega)]

/-- A write of several bytes is read back byte by byte. -/
theorem readByte_writeBytes_inside (m : Memory) (a : Nat) (bs : List Byte) {k : Nat}
    (h : k < bs.length) : readByte (writeBytes m a bs) (a + k) = bs[k]? := by
  induction bs generalizing m a k with
  | nil => simp at h
  | cons b bs ih =>
    rw [writeBytes]
    cases k with
    | zero => rw [readByte_writeBytes_outside _ _ _ (by omega)]; simp
    | succ k =>
      rw [List.length_cons] at h
      rw [show a + (k + 1) = a + 1 + k by omega, ih _ _ (by omega), List.getElem?_cons_succ]

/-! ### A buffer without gaps -/

theorem Filled.size_eq {m : Memory} {n : Nat} (h : Filled m n) : m.size = n := by
  have := congrArg List.length h
  simpa [Memory.size] using this

theorem Filled.bytes_length {m : Memory} {n : Nat} (h : Filled m n) : m.bytes.length = n := by
  simpa [bytes, Memory.size] using h.size_eq

theorem Filled.wf {m : Memory} {n : Nat} (h : Filled m n) : m.wf := by
  have : (m.map Prod.fst).Pairwise (· < ·) := h ▸ List.pairwise_lt_range
  exact List.pairwise_map.1 this

theorem writeByte_of_lt {m : Memory} {n : Nat} (h : ∀ c ∈ m, c.1 < n) (b : Byte) :
    writeByte m n b = m ++ [(n, b)] := by
  induction m with
  | nil => rfl
  | cons c m ih =>
    have hc := h c (by simp)
    rw [writeByte, if_neg (by omega), if_neg (by omega), ih fun d hd => h d (by simp [hd])]
    rfl

theorem Filled.fst_lt {m : Memory} {n : Nat} (h : Filled m n) : ∀ c ∈ m, c.1 < n := by
  intro c hc
  have : c.1 ∈ m.map Prod.fst := List.mem_map_of_mem hc
  rw [h] at this
  exact List.mem_range.1 this

/-- Writing at the end of a gap-free buffer appends. -/
theorem Filled.writeByte_eq {m : Memory} {n : Nat} (h : Filled m n) (b : Byte) :
    Memory.writeByte m n b = m ++ [(n, b)] := writeByte_of_lt h.fst_lt b

theorem Filled.writeByte {m : Memory} {n : Nat} (h : Filled m n) (b : Byte) :
    Filled (Memory.writeByte m n b) (n + 1) := by
  rw [h.writeByte_eq]
  simp only [Filled, List.map_append, List.map_cons, List.map_nil, List.range_succ]
  rw [h]

theorem Filled.writeBytes {m : Memory} {n : Nat} (h : Filled m n) (bs : List Byte) :
    Filled (Memory.writeBytes m n bs) (n + bs.length) := by
  induction bs generalizing m n with
  | nil => exact h
  | cons b bs ih =>
    have := ih (h.writeByte b)
    rwa [List.length_cons, show n + (bs.length + 1) = n + 1 + bs.length by omega]

theorem Filled.bytes_writeBytes {m : Memory} {n : Nat} (h : Filled m n) (bs : List Byte) :
    (Memory.writeBytes m n bs).bytes = m.bytes ++ bs := by
  induction bs generalizing m n with
  | nil => simp [Memory.writeBytes]
  | cons b bs ih =>
    rw [Memory.writeBytes, ih (h.writeByte b), h.writeByte_eq]
    simp [bytes]

theorem Filled.bytes_writeByte {m : Memory} {n : Nat} (h : Filled m n) (b : Byte) :
    (Memory.writeByte m n b).bytes = m.bytes ++ [b] := h.bytes_writeBytes [b]

/-- Reading a gap-free buffer is indexing its byte sequence. -/
theorem Filled.readByte_eq {m : Memory} {n : Nat} (h : Filled m n) (a : Nat) :
    m.readByte a = m.bytes[a]? := by
  suffices ∀ (m : Memory) (k n : Nat), m.map Prod.fst = List.range' k n →
      m.readByte (k + a) = m.bytes[a]? by
    simpa using this m 0 n (by rw [h, List.range_eq_range'])
  intro m
  induction m generalizing a with
  | nil => simp [bytes]
  | cons c m ih =>
    intro k n h
    cases n with
    | zero => simp at h
    | succ n =>
      simp only [List.map_cons, List.range'_succ, List.cons.injEq] at h
      rw [readByte_cons, h.1]
      cases a with
      | zero => simp [bytes]
      | succ a =>
        rw [if_neg (by omega), show k + (a + 1) = k + 1 + a by omega, ih a _ _ h.2]
        simp [bytes]

/-- `MemRead` inside a gap-free buffer is a slice of its byte sequence. -/
theorem Filled.readBytes_eq {m : Memory} {n : Nat} (h : Filled m n) {a k : Nat}
    (hak : a + k ≤ n) : m.readBytes a k = some ((m.bytes.drop a).take k) := by
  induction k generalizing a with
  | zero => simp [readBytes]
  | succ k ih =>
    have hlt : a < m.bytes.length := by rw [h.bytes_length]; omega
    rw [readBytes, ih (by omega), h.readByte_eq, List.getElem?_eq_getElem hlt]
    simp only [Option.some.injEq]
    rw [List.drop_eq_getElem_cons hlt, List.take_succ_cons]

/-- `MemRead(a, n)` returns `n` bytes. -/
theorem readBytes_length {m : Memory} {a k : Nat} {d : List Byte}
    (h : m.readBytes a k = some d) : d.length = k := by
  induction k generalizing a d with
  | zero => simp [readBytes] at h; simp [← h]
  | succ k ih =>
    rw [readBytes] at h
    split at h
    · next hb => cases h; simp [ih hb]
    · cases h

/-- Byte `j` of a read is the byte at the address `j` further on. -/
theorem getElem?_of_readBytes {m : Memory} {a k : Nat} {d : List Byte}
    (h : m.readBytes a k = some d) {j : Nat} (hj : j < k) : d[j]? = m.readByte (a + j) := by
  induction k generalizing a d j with
  | zero => omega
  | succ k ih =>
    rw [readBytes] at h
    split at h
    · next b bs hb hbs =>
      cases h
      cases j with
      | zero => simp [hb]
      | succ j => rw [List.getElem?_cons_succ, ih hbs (by omega), show a + 1 + j = a + (j + 1) by omega]
    · cases h

end Sys2Proof.Machine.Memory
end

