-- ==== Sys2Proof/Laws/Padding.lean ====
section
/-! SUPPORT. Arithmetic of the padding (41_pad R113) and the sizes of what it appends. -/

namespace Sys2Proof.Machine

@[simp] theorem byteBits_eq : byteBits = 8 := rfl
@[simp] theorem blockBytes_eq : blockBytes = 64 := rfl

theorem zeroFill_le (n : Nat) : zeroFill n ≤ 63 := by unfold zeroFill; omega

/-- Only the six low bits of the length matter (R113). -/
theorem zeroFill_eq_mod (n : Nat) : zeroFill n = (119 - n % 64) % 64 := by unfold zeroFill; omega

@[simp] theorem length_zeros (n : Nat) : (zeros n).length = n := by simp [zeros]

@[simp] theorem length_be64 (v : U64) : (be64 v).length = 8 := by simp [be64]

theorem getElem?_be64 (v : U64) {k : Nat} (h : k < 8) :
    (be64 v)[k]? = some (v.extractLsb' (56 - 8 * k) 8) := by
  simp [be64, List.getElem?_range h]

@[simp] theorem length_padTail (n : Nat) : (padTail n).length = zeroFill n + 9 := by
  simp [padTail]

theorem lengthOverflows_iff (n : Nat) : lengthOverflows n = true ↔ 2 ^ 61 ≤ n := by
  simp [lengthOverflows]

theorem lengthOverflows_eq_true {n : Nat} (h : 2 ^ 61 ≤ n) : lengthOverflows n = true :=
  (lengthOverflows_iff n).2 h

theorem lengthOverflows_eq_false {n : Nat} (h : n < 2 ^ 61) : lengthOverflows n = false := by
  simpa [lengthOverflows] using h

end Sys2Proof.Machine
end

