-- ==== Sys2Proof/Laws/State.lean ====
section
/-! SUPPORT. What each shared update of State leaves in each field, one lemma per field, so that no
later proof unfolds a record update; and the frame of taking a fault (60_exceptions R155). -/

namespace Sys2Proof.Machine

variable (s : State)

/-! ### respond -/

@[simp] theorem respond_buf (r : Response) : (s.respond r).buf = s.buf := rfl
@[simp] theorem respond_blen (r : Response) : (s.respond r).blen = s.blen := rfl
@[simp] theorem respond_mlen (r : Response) : (s.respond r).mlen = s.mlen := rfl
@[simp] theorem respond_bitlen (r : Response) : (s.respond r).bitlen = s.bitlen := rfl
@[simp] theorem respond_bcnt (r : Response) : (s.respond r).bcnt = s.bcnt := rfl
@[simp] theorem respond_bidx (r : Response) : (s.respond r).bidx = s.bidx := rfl
@[simp] theorem respond_phase (r : Response) : (s.respond r).phase = s.phase := rfl
@[simp] theorem respond_pd (r : Response) : (s.respond r).pd = s.pd := rfl
@[simp] theorem respond_err (r : Response) : (s.respond r).err = s.err := rfl
@[simp] theorem respond_cfg (r : Response) : (s.respond r).cfg = s.cfg := rfl
@[simp] theorem respond_input (r : Response) : (s.respond r).input = s.input := rfl
@[simp] theorem respond_trace (r : Response) : (s.respond r).trace = s.trace ++ [r] := rfl

/-! ### enterFault -/

@[simp] theorem enterFault_buf (k : ErrKind) : (s.enterFault k).buf = s.buf := rfl
@[simp] theorem enterFault_blen (k : ErrKind) : (s.enterFault k).blen = s.blen := rfl
@[simp] theorem enterFault_mlen (k : ErrKind) : (s.enterFault k).mlen = s.mlen := rfl
@[simp] theorem enterFault_bitlen (k : ErrKind) : (s.enterFault k).bitlen = s.bitlen := rfl
@[simp] theorem enterFault_bcnt (k : ErrKind) : (s.enterFault k).bcnt = s.bcnt := rfl
@[simp] theorem enterFault_bidx (k : ErrKind) : (s.enterFault k).bidx = s.bidx := rfl
@[simp] theorem enterFault_phase (k : ErrKind) : (s.enterFault k).phase = .fault := rfl
@[simp] theorem enterFault_pd (k : ErrKind) : (s.enterFault k).pd = s.pd := rfl
@[simp] theorem enterFault_err (k : ErrKind) : (s.enterFault k).err = some k := rfl
@[simp] theorem enterFault_cfg (k : ErrKind) : (s.enterFault k).cfg = s.cfg := rfl
@[simp] theorem enterFault_input (k : ErrKind) : (s.enterFault k).input = s.input := rfl
@[simp] theorem enterFault_trace (k : ErrKind) : (s.enterFault k).trace = s.trace ++ [.err k] := rfl

/-! ### clear -/

@[simp] theorem clear_buf : s.clear.buf = [] := rfl
@[simp] theorem clear_blen : s.clear.blen = 0 := rfl
@[simp] theorem clear_mlen : s.clear.mlen = 0 := rfl
@[simp] theorem clear_bitlen : s.clear.bitlen = 0 := rfl
@[simp] theorem clear_bcnt : s.clear.bcnt = 0 := rfl
@[simp] theorem clear_bidx : s.clear.bidx = 0 := rfl
@[simp] theorem clear_phase : s.clear.phase = .load := rfl
@[simp] theorem clear_pd : s.clear.pd = false := rfl
@[simp] theorem clear_err : s.clear.err = none := rfl
@[simp] theorem clear_cfg : s.clear.cfg = s.cfg := rfl
@[simp] theorem clear_input : s.clear.input = s.input := rfl
@[simp] theorem clear_trace : s.clear.trace = s.trace := rfl

/-! ### appendByte -/

@[simp] theorem appendByte_buf (b : Byte) : (s.appendByte b).buf = s.buf.writeByte s.blen b := rfl
@[simp] theorem appendByte_blen (b : Byte) : (s.appendByte b).blen = s.blen + 1 := rfl
@[simp] theorem appendByte_mlen (b : Byte) : (s.appendByte b).mlen = s.mlen := rfl
@[simp] theorem appendByte_bitlen (b : Byte) : (s.appendByte b).bitlen = s.bitlen := rfl
@[simp] theorem appendByte_bcnt (b : Byte) : (s.appendByte b).bcnt = s.bcnt := rfl
@[simp] theorem appendByte_bidx (b : Byte) : (s.appendByte b).bidx = s.bidx := rfl
@[simp] theorem appendByte_phase (b : Byte) : (s.appendByte b).phase = s.phase := rfl
@[simp] theorem appendByte_pd (b : Byte) : (s.appendByte b).pd = s.pd := rfl
@[simp] theorem appendByte_err (b : Byte) : (s.appendByte b).err = s.err := rfl
@[simp] theorem appendByte_cfg (b : Byte) : (s.appendByte b).cfg = s.cfg := rfl
@[simp] theorem appendByte_input (b : Byte) : (s.appendByte b).input = s.input := rfl
@[simp] theorem appendByte_trace (b : Byte) : (s.appendByte b).trace = s.trace := rfl

/-! ### commitPad -/

@[simp] theorem commitPad_buf : s.commitPad.buf = padCandidate s := rfl
@[simp] theorem commitPad_blen : s.commitPad.blen = (padCandidate s).size := rfl
@[simp] theorem commitPad_mlen : s.commitPad.mlen = s.blen := rfl
@[simp] theorem commitPad_bitlen : s.commitPad.bitlen = bitLength s.blen := rfl
@[simp] theorem commitPad_bcnt : s.commitPad.bcnt = s.bcnt := rfl
@[simp] theorem commitPad_bidx : s.commitPad.bidx = s.bidx := rfl
@[simp] theorem commitPad_phase : s.commitPad.phase = .padded := rfl
@[simp] theorem commitPad_pd : s.commitPad.pd = true := rfl
@[simp] theorem commitPad_err : s.commitPad.err = s.err := rfl
@[simp] theorem commitPad_cfg : s.commitPad.cfg = s.cfg := rfl
@[simp] theorem commitPad_input : s.commitPad.input = s.input := rfl
@[simp] theorem commitPad_trace : s.commitPad.trace = s.trace := rfl

/-! ### openSequence -/

@[simp] theorem openSequence_buf : s.openSequence.buf = s.buf := rfl
@[simp] theorem openSequence_blen : s.openSequence.blen = s.blen := rfl
@[simp] theorem openSequence_mlen : s.openSequence.mlen = s.mlen := rfl
@[simp] theorem openSequence_bitlen : s.openSequence.bitlen = s.bitlen := rfl
@[simp] theorem openSequence_bcnt : s.openSequence.bcnt = s.blen / 64 := rfl
@[simp] theorem openSequence_bidx : s.openSequence.bidx = 0 := rfl
@[simp] theorem openSequence_phase : s.openSequence.phase = .part := rfl
@[simp] theorem openSequence_pd : s.openSequence.pd = s.pd := rfl
@[simp] theorem openSequence_err : s.openSequence.err = s.err := rfl
@[simp] theorem openSequence_cfg : s.openSequence.cfg = s.cfg := rfl
@[simp] theorem openSequence_input : s.openSequence.input = s.input := rfl
@[simp] theorem openSequence_trace : s.openSequence.trace = s.trace := rfl

/-! ### advance -/

@[simp] theorem advance_buf : s.advance.buf = s.buf := rfl
@[simp] theorem advance_blen : s.advance.blen = s.blen := rfl
@[simp] theorem advance_mlen : s.advance.mlen = s.mlen := rfl
@[simp] theorem advance_bitlen : s.advance.bitlen = s.bitlen := rfl
@[simp] theorem advance_bcnt : s.advance.bcnt = s.bcnt := rfl
@[simp] theorem advance_bidx : s.advance.bidx = s.bidx + 1 := rfl
@[simp] theorem advance_phase : s.advance.phase = s.phase := rfl
@[simp] theorem advance_pd : s.advance.pd = s.pd := rfl
@[simp] theorem advance_err : s.advance.err = s.err := rfl
@[simp] theorem advance_cfg : s.advance.cfg = s.cfg := rfl
@[simp] theorem advance_input : s.advance.input = s.input := rfl
@[simp] theorem advance_trace : s.advance.trace = s.trace := rfl

/-! ### Reset values (10_state R39) -/

@[simp] theorem Arch.reset_buf : Arch.reset.buf = [] := rfl
@[simp] theorem Arch.reset_blen : Arch.reset.blen = 0 := rfl
@[simp] theorem Arch.reset_mlen : Arch.reset.mlen = 0 := rfl
@[simp] theorem Arch.reset_bitlen : Arch.reset.bitlen = 0 := rfl
@[simp] theorem Arch.reset_bcnt : Arch.reset.bcnt = 0 := rfl
@[simp] theorem Arch.reset_bidx : Arch.reset.bidx = 0 := rfl
@[simp] theorem Arch.reset_phase : Arch.reset.phase = .load := rfl
@[simp] theorem Arch.reset_pd : Arch.reset.pd = false := rfl
@[simp] theorem Arch.reset_err : Arch.reset.err = none := rfl

/-! ### Whole-record facts -/

@[simp] theorem respond_toArch (r : Response) : (s.respond r).toArch = s.toArch := rfl
@[simp] theorem clear_toArch : s.clear.toArch = Arch.reset := rfl
@[simp] theorem appendAddr_eq (a : Arch) : appendAddr a = a.blen := rfl
@[simp] theorem blockAddr_eq (a : Arch) : blockAddr a = 64 * a.bidx := rfl

/-- Taking a fault writes `ERR`, `PHASE` and the trace, and nothing else. -/
theorem enterFault_eq (k : ErrKind) :
    s.enterFault k = { s with err := some k, phase := .fault, trace := s.trace ++ [.err k] } := rfl

theorem raise_next (k : ErrKind) (t : State) : raise s k = .next t ↔ t = s.enterFault k := by
  simp [raise, eq_comm]

end Sys2Proof.Machine
end

