-- ==== Sys2Proof/Laws/Exec.lean ====
section
/-! SUPPORT. One inversion lemma per command: everything it can do when it answers a next state,
guards included. Later proofs cite these and do not unfold the meanings. -/

namespace Sys2Proof.Machine

theorem exec_init (s : State) : exec .init s = .next (s.clear.respond .ack) := rfl

theorem execPush_next {b : Byte} {s t : State} (h : execPush b s = .next t) :
    s.phase = .load ∧ s.cfg.bufCap ≠ some s.blen ∧ t = (s.appendByte b).respond .ack := by
  unfold execPush at h
  split_ifs at h with h₁ h₂
  cases h
  simp_all [legalIn, bufferFull]

theorem execPad_next {s t : State} (h : execPad s = .next t) :
    s.phase = .load ∧
      ((2 ^ 61 ≤ s.blen ∧ t = s.enterFault .overflow) ∨
       (s.blen < 2 ^ 61 ∧ exceedsCap s (s.blen + 9 + zeroFill s.blen) = false ∧
         (((padCandidate s).size % 64 ≠ 0 ∧ t = s.enterFault .padinv) ∨
          ((padCandidate s).size % 64 = 0 ∧ t = s.commitPad.respond .ack)))) := by
  unfold execPad at h
  split_ifs at h with h₁ h₂ h₃ h₄
  all_goals (simp_all [legalIn, lengthOverflows, raise])

theorem execSplit_next {s t : State} (h : execSplit s = .next t) :
    s.phase ≠ .fault ∧
      ((s.blen % 64 ≠ 0 ∧ t = s.enterFault .align) ∨
       (s.blen % 64 = 0 ∧ t = s.openSequence.respond .ack)) := by
  unfold execSplit at h
  split_ifs at h with h₁ h₂
  all_goals (simp_all [legalIn, raise])

theorem execNext_next {s t : State} (h : execNext s = .next t) :
    s.phase = .part ∧
      ((s.bidx = s.bcnt ∧ t = s.respond .endSeq) ∨
       (s.bidx ≠ s.bcnt ∧ ∃ d, s.buf.readBytes (64 * s.bidx) 64 = some d ∧
         t = s.advance.respond (.blk s.bidx s.lastBit d))) := by
  unfold execNext at h
  split_ifs at h with h₁ h₂
  · simp_all [legalIn]
  · split at h
    · cases h
    · next d hd =>
      cases h
      simp_all [legalIn]

theorem exceedsCap_eq_false {s : State} {n : Nat} (h : exceedsCap s n = false) :
    ∀ cap, s.cfg.bufCap = some cap → n ≤ cap := by
  intro cap hc
  simpa [exceedsCap, hc] using h

/-- No command touches the parameter or the command stream. -/
theorem exec_cfg_input {i : Instr} {s t : State} (h : exec i s = .next t) :
    t.cfg = s.cfg ∧ t.input = s.input := by
  cases i with
  | init => cases h; simp
  | push b => obtain ⟨-, -, rfl⟩ := execPush_next h; simp
  | pad => obtain ⟨-, ⟨-, rfl⟩ | ⟨-, -, ⟨-, rfl⟩ | ⟨-, rfl⟩⟩⟩ := execPad_next h <;> simp
  | split => obtain ⟨-, ⟨-, rfl⟩ | ⟨-, rfl⟩⟩ := execSplit_next h <;> simp
  | next => obtain ⟨-, ⟨-, rfl⟩ | ⟨-, d, -, rfl⟩⟩ := execNext_next h <;> simp

/-- Everything a step can do when it answers a next state. -/
theorem step_next {s t : State} (h : step s = .next t) :
    (s.input = [] ∧ t = s) ∨
    (∃ rest, s.input = .reset :: rest ∧ t = { s with input := rest }.takeReset) ∨
    (∃ w rest i, s.input = .command w :: rest ∧ decode w = .ok i ∧
      exec i { s with input := rest } = .next t) := by
  unfold step fetch at h
  rcases hi : s.input with _ | ⟨e, rest⟩
  · simp [hi] at h; simp [h]
  · rcases e with w | _
    · rcases hd : decode w with _ | i
      · simp [hi, hd] at h
      · simp [hi, hd] at h; exact .inr (.inr ⟨w, rest, i, rfl, hd, h⟩)
    · simp [hi] at h; exact .inr (.inl ⟨rest, rfl, h.symm⟩)

end Sys2Proof.Machine
end

