-- ==== Sys2Proof/Laws/PerInstr.lean ====
section
/-! SUPPORT. Statements made of every instruction, one lemma per constructor (LAWS.json). -/

namespace Sys2Proof.Laws

/-- The encoding of an instruction has well-formed fields (30_encoding R70) and lies in the
instruction's own row of the opcode table and in no other (R71). -/
def EncodesInItsRow.Statement (i : Instr) : Prop :=
  (encodeFields i).wellFormed = true ∧
    opcodeTable.filter (fun r => r.covers (encode i)) = [i.row]

theorem EncodesInItsRow.init : EncodesInItsRow.Statement .init := by
  simp [EncodesInItsRow.Statement]; decide

theorem EncodesInItsRow.push (imm8 : Byte) : EncodesInItsRow.Statement (.push imm8) := by
  unfold EncodesInItsRow.Statement
  revert imm8; decide

theorem EncodesInItsRow.pad : EncodesInItsRow.Statement .pad := by
  simp [EncodesInItsRow.Statement]; decide

theorem EncodesInItsRow.split : EncodesInItsRow.Statement .split := by
  simp [EncodesInItsRow.Statement]; decide

theorem EncodesInItsRow.next : EncodesInItsRow.Statement .next := by
  simp [EncodesInItsRow.Statement]; decide

end Sys2Proof.Laws
end

