-- ==== Sys2Proof/Laws/Run.lean ====
section
/-! SUPPORT. How a run goes on from one step (70_reset_and_hazards R194), for the host's `run` and
for a list of command words. -/

namespace Sys2Proof.Machine

variable {s t : State}

theorem run_next (h : step s = .next t) (k : Nat) : core.run (k + 1) s = core.run k t := by
  have : core.step s = .next t := h
  simp only [Host.Core.run, this]

theorem run_fault {f : Fault} (h : step s = .fault f) (k : Nat) : core.run (k + 1) s = .fault f := by
  have : core.step s = .fault f := h
  simp only [Host.Core.run, this]

theorem run_refused {r : Refusal} (h : step s = .refused r) (k : Nat) :
    core.run (k + 1) s = .refused r := by
  have : core.step s = .refused r := h
  simp only [Host.Core.run, this]

/-- Offering a word that decodes runs its command and leaves the stream as it was. -/
theorem step_offer {w : Word} {i : Instr} (h : decode w = .ok i) : step (s.offer w) = exec i s := by
  simp [step, fetch, State.offer, h]

theorem step_offer_invalid {w : Word} {e : Invalid} (h : decode w = .error e) :
    step (s.offer w) = .refused .invalidEncoding := by
  simp [step, fetch, State.offer, h]

@[simp] theorem runFrom_nil (k : Nat) : runFrom k [] s = .completed s := rfl

theorem runFrom_next {w : Word} {ws : List Word} (h : step (s.offer w) = .next t) (k : Nat) :
    runFrom k (w :: ws) s = runFrom (k + 1) ws t := by
  rw [runFrom, h]

theorem runFrom_refused {w : Word} {ws : List Word} {r : Refusal}
    (h : step (s.offer w) = .refused r) (k : Nat) : runFrom k (w :: ws) s = .refused k r s := by
  rw [runFrom, h]

end Sys2Proof.Machine
end

