-- ==== Sys2Proof/Tests/Slice0.lean ====
section
/-! SUPPORT. The model's own tests. Expected values come from spec/95_test_vectors (named V-...,
S..., P...) or from the rule named; then one witness per statement that has hypotheses. -/

namespace Sys2Proof.Tests

open Sys2Proof Sys2Proof.Machine

/-! ### Small states -/

/-- Cells for a byte sequence from address 0. -/
def cells (bs : List Byte) : Memory := Memory.writeBytes [] 0 bs

/-- A `LOAD` state holding `n` zero bytes, for a given `BUF_CAP`. -/
def loaded (n : Nat) (cap : Option Nat := none) : State :=
  { State.resetWith ⟨cap⟩ with buf := (List.range n).map fun i => (i, (0 : Byte)), blen := n }

theorem loaded_blen (n : Nat) (cap : Option Nat) : (loaded n cap).blen = n := rfl

/-- A `LOAD` state holding a message. -/
def message (bs : List Byte) : State := { State.reset with buf := cells bs, blen := bs.length }

/-- The padded empty message (95_test_vectors S1), written out. -/
def padded : State :=
  { State.reset with
    buf := cells (0x80 :: List.replicate 63 0x00), blen := 64, phase := .padded, pd := true }

/-- The same with its one-block sequence open at index `k`. -/
def opened (k : Nat) : State := { padded with phase := .part, bcnt := 1, bidx := k }

/-- The fault state of 40_message_load R90's example, with a short buffer. -/
def faulted : State := { loaded 1 with phase := .fault, err := some .align }

/-- What a result is, in one word, so that tests compare small things. -/
def answer : Result → Option (Response ⊕ Refusal)
  | .next t => t.trace.getLast?.map .inl
  | .fault _ => none
  | .refused r => some (.inr r)

/-- One projection of the next state. -/
def after (f : State → α) : Result → Option α
  | .next t => some (f t)
  | .fault _ => none
  | .refused _ => none

/-! ### WellFormed smoke tests: one ill-formed term for each check -/

theorem test_wf_reserved_op : Fields.wellFormed ⟨0x6, 0x0, 0x00⟩ = false := by decide
theorem test_wf_mbz : Fields.wellFormed ⟨0x2, 0x1, 0x80⟩ = false := by decide
theorem test_wf_imm8 : Fields.wellFormed ⟨0x1, 0x0, 0x01⟩ = false := by decide
theorem test_wf_push : Fields.wellFormed ⟨0x2, 0x0, 0xFF⟩ = true := by decide

/-! ### Decoding, words written bit by bit from 30_encoding R70, R71 (V-ENC) -/

theorem test_decode_init : decode 0b0001_0000_00000000 = .ok .init := by decide
theorem test_decode_push : decode 0b0010_0000_01100001 = .ok (.push 0x61) := by decide
theorem test_decode_pad : decode 0b0011_0000_00000000 = .ok .pad := by decide
theorem test_decode_split : decode 0b0100_0000_00000000 = .ok .split := by decide
theorem test_decode_next : decode 0b0101_0000_00000000 = .ok .next := by decide
theorem test_decode_invalid : [0x0000, 0x1001, 0x1100, 0x2180, 0x3001, 0x5F00, 0x6000, 0xF000,
    0xFFFF].all (fun w => decodeTableWord 16 w == none) = true := by decide
theorem test_table_words :
    [0x1000, 0x2080, 0x3000, 0x4000, 0x5000].map (decodeTableWord 16) =
      [some .init, some (.push 0x80), some .pad, some .split, some .next] := by decide

/-! ### The length encoder and the zero fill (V-LEN, V-PAD) -/

theorem test_be64_order : be64 0x0102030405060708 = [1, 2, 3, 4, 5, 6, 7, 8] := by decide
theorem test_be64_largest :
    be64 (bitLength (2 ^ 61 - 1)) = [0xFF, 0xFF, 0xFF, 0xFF, 0xFF, 0xFF, 0xFF, 0xF8] := by decide
theorem test_zeroFill : [0, 1, 54, 55, 56, 57, 63, 64, 100, 119, 120, 2 ^ 61 - 1].map zeroFill =
    [55, 54, 1, 0, 63, 62, 56, 55, 19, 0, 63, 56] := by decide

/-! ### One step of each command -/

/-- R90's example: `INIT` from `FAULT`. -/
theorem test_init_leaves_fault : after (fun t => (t.phase, t.err, t.blen, t.buf)) (exec .init faulted)
    = some (.load, none, 0, []) := by decide

/-- R92's example. -/
theorem test_push_a : after (fun t => (t.buf, t.blen, t.phase)) (exec (.push 0x61) State.reset)
    = some ([(0, 0x61)], 1, .load) := by decide

/-- P7: a byte after `PAD` is refused. -/
theorem test_push_padded : answer (exec (.push 0x62) padded) = some (.inr .wrongPhase) := by decide

/-- S2: "abc". -/
theorem test_pad_abc :
    after (fun t => (t.buf.bytes, t.blen, t.mlen, t.bitlen, t.status))
        (exec .pad (message [0x61, 0x62, 0x63]))
      = some ([0x61, 0x62, 0x63, 0x80] ++ List.replicate 52 0x00 ++ [0, 0, 0, 0, 0, 0, 0, 0x18],
          64, 3, 24, 0x05) := by decide +kernel

/-- V-PAD, the row 2^61: the fault, with `BLEN` kept. The buffer is left out of this state. -/
theorem test_pad_overflow :
    after (fun t => (t.status, t.blen, t.pd)) (exec .pad { State.reset with blen := 2 ^ 61 })
      = some (0x13, 2 ^ 61, false) := by decide +kernel

/-- S3: 56 bytes spill into a second block. -/
theorem test_pad_spill : after (fun t => (t.blen, t.bitlen)) (exec .pad (loaded 56))
    = some (128, 448) := by decide +kernel

/-- S5, with the shorter misaligned length of V-SPLIT. -/
theorem test_split_misaligned :
    answer (exec .split (loaded 63)) = some (.inl (.err .align)) := by decide +kernel

/-- V-SPLIT, the row 0. -/
theorem test_split_empty :
    after (fun t => (t.bcnt, t.phase, t.status)) (exec .split State.reset)
      = some (0, .part, 0x02) := by decide

/-- R137's example: the block of the empty message. -/
theorem test_next_block : answer (exec .next (opened 0))
    = some (.inl (.blk 0 true (0x80 :: List.replicate 63 0x00))) := by decide +kernel

/-- V-NEXT: `END` after the last block. -/
theorem test_next_end : answer (exec .next (opened 1)) = some (.inl .endSeq) := by decide

/-- A finite `BUF_CAP` (R93). -/
theorem test_push_capacity : answer (exec (.push 0) (loaded 2 (some 2))) = some (.inr .capacity) := by
  decide

/-- The step fetches the word placed at the head of the stream. -/
theorem test_step_fetches :
    after (fun t => (t.buf, t.input)) (step (State.reset.withFetchWord 16 0x2061))
      = some ([(0, 0x61)], []) := by decide

/-! ### Assembly lines (30_encoding R80, R81) -/

theorem test_asm_decimal : parseLine ['P', 'U', 'S', 'H', ' ', '2', '5', '5', ' ', '#', 'x']
    = some (some (.cmd (.push 0xFF))) := by decide
theorem test_asm_decimal_range : parseLine ['P', 'U', 'S', 'H', ' ', '2', '5', '6'] = none := by decide
theorem test_asm_pushn : parseLine ['P', 'U', 'S', 'H', 'N', ' ', '5', '6', ',', ' ', '\'', 'a', '\'']
    = some (some (.pushn 56 0x61)) := by decide
theorem test_asm_pushs :
    parseLine (['P', 'U', 'S', 'H', 'S', ' ', quoteChar, 'a', 'b', 'c', quoteChar])
      = some (some (.pushs [0x61, 0x62, 0x63])) := by decide

/-! ### Allowed states -/

theorem filled_loaded (n : Nat) : Memory.Filled ((List.range n).map fun i => (i, (0 : Byte))) n := by
  simp [Memory.Filled, Function.comp_def]

theorem buffer_loaded (n : Nat) (cap : Option Nat) : BufferIs (loaded n cap).toArch :=
  filled_loaded n

theorem phase_loaded (n : Nat) (cap : Option Nat) : (loaded n cap).phase = .load := rfl

/-- Every `LOAD` state is allowed. -/
theorem inv_loaded (n : Nat) (cap : Option Nat) (h : ∀ c, cap = some c → n ≤ c) :
    Inv (loaded n cap) := by
  refine ⟨(filled_loaded n).wf, filled_loaded n, h, ?_, ?_, ?_, ?_, ?_, ?_, ?_, ?_⟩ <;>
    simp [loaded, State.resetWith]

theorem layout_padded : PaddedLayout padded.toArch := by
  have hf : ∀ i < 56, 1 ≤ i → padded.buf.readByte i = some 0x00 := by decide +kernel
  have hl : ∀ k < 8, padded.buf.readByte (56 + k) = some ((0 : U64).extractLsb' (56 - 8 * k) 8) := by
    decide +kernel
  exact ⟨by decide, by decide, by decide, by decide, by decide,
    fun i h₁ h₂ => hf i h₂ h₁, fun k hk => hl k hk⟩

theorem inv_padded : Inv padded := by
  have hb : BufferIs padded.toArch := by decide +kernel
  refine ⟨hb.wf, hb, ?_, ?_, ?_, fun _ => layout_padded, ?_, ?_, ?_, ?_, ?_⟩ <;>
    simp [padded, State.reset, State.resetWith, Config.unbounded]

theorem inv_opened (k : Nat) (hk : k ≤ 1) : Inv (opened k) := by
  have hb : BufferIs padded.toArch := by decide +kernel
  have hl := layout_padded
  refine ⟨hb.wf, hb, ?_, ?_, ?_, fun _ => ⟨hl.1, hl.2, hl.3, hl.4, hl.5, hl.6, hl.7⟩,
    ?_, ?_, ?_, ?_, ?_⟩ <;>
    simp [opened, padded, State.reset, State.resetWith, Config.unbounded, hk]

theorem inv_faulted : Inv faulted := by
  refine ⟨(filled_loaded 1).wf, filled_loaded 1, ?_, ?_, ?_, ?_, ?_, ?_, ?_, ?_, ?_⟩ <;>
    simp [faulted, loaded, State.resetWith]

/-! ### Witnesses: states and operands that meet the statements' hypotheses, clause by clause -/

/-- The next state of a command in a state, as an existence fact. -/
abbrev Runs (i : Instr) (s : State) : Prop := ∃ t, exec i s = .next t

theorem runs_init (s : State) : Runs .init s := ⟨_, rfl⟩
theorem runs_push : Runs (.push 0x61) (loaded 0) := ⟨_, rfl⟩
theorem runs_pad : Runs .pad (loaded 0) := ⟨_, rfl⟩
theorem runs_split : Runs .split (loaded 0) := ⟨_, rfl⟩
theorem runs_split_fault : ∃ t, exec .split (loaded 1) = .next t ∧ t.trace = [.err .align] :=
  ⟨_, rfl, rfl⟩
theorem runs_next : ∃ t d, exec .next (opened 0) = .next t ∧ t.trace = [.blk 0 true d] :=
  ⟨_, _, rfl, rfl⟩
theorem runs_next_end : Runs .next (opened 1) := ⟨_, rfl⟩

theorem witness_DecoderAndEncoderAreInverse :
    (0x0100 : Word).extractLsb' 8 4 ≠ 0 ∧
    ((0x20FF : Word).extractLsb' 8 4 = 0 ∧ (0x20FF : Word).extractLsb' 12 4 = 2) ∧
    ((0x1001 : Word).extractLsb' 8 4 = 0 ∧ (0x1001 : Word).extractLsb' 12 4 ≠ 2 ∧
      (0x1001 : Word).extractLsb' 0 8 ≠ 0) ∧
    Fields.ofWord 0x1000 = ⟨1, 0, 0⟩ ∧ Fields.ofWord 0x3000 = ⟨3, 0, 0⟩ ∧
    Fields.ofWord 0x4000 = ⟨4, 0, 0⟩ ∧ Fields.ofWord 0x5000 = ⟨5, 0, 0⟩ ∧
    Fields.ofWord 0x0000 = ⟨0, 0, 0⟩ ∧ Fields.ofWord 0x6000 = ⟨6, 0, 0⟩ ∧
    decode 0x20FF = .ok (.push 0xFF) :=
  ⟨by decide, ⟨by decide, by decide⟩, ⟨by decide, by decide, by decide⟩, by decide, by decide,
    by decide, by decide, by decide, by decide, by decide⟩

theorem witness_InvalidWordsAreRefused :
    (State.reset.withFetchWord 16 0x6000).input = .command 0x6000 :: [] ∧
    (0x0000 : Word).extractLsb' 12 4 = 0 ∧ 6 ≤ ((0x6000 : Word).extractLsb' 12 4).toNat ∧
    6 ≤ ((0xFFFF : Word).extractLsb' 12 4).toNat ∧ (0x2100 : Word).extractLsb' 8 4 ≠ 0 ∧
    ((0x5001 : Word).extractLsb' 12 4 ≠ 2 ∧ (0x5001 : Word).extractLsb' 0 8 ≠ 0) ∧
    (State.reset.withFetchWord 16 0x0000).input = .command 0x0000 :: [] ∧
    (State.reset.withFetchWord 16 0xFFFF).input = .command 0xFFFF :: [] := by decide

theorem witness_StepRunsTheDecodedCommand :
    (State.reset.withFetchWord 16 0x2061).input = .command 0x2061 :: [] ∧
    decode 0x2061 = .ok (.push 0x61) := by decide

theorem witness_IdleHoldsAndResetClears :
    State.reset.input = [] ∧ ({ faulted with input := [.reset] } : State).input = .reset :: [] := by
  decide

theorem witness_InitErasesHistory :
    faulted.cfg = (loaded 0).cfg ∧ faulted.input = (loaded 0).input ∧
    Runs .init faulted ∧ Runs .init (loaded 0) := ⟨rfl, rfl, runs_init _, runs_init _⟩

/-- The last free byte of a finite buffer, the unbounded one, the other phases, the full buffer. -/
theorem witness_PushAppendsOneByte :
    ((loaded 1 (some 2)).phase = .load ∧ (loaded 1 (some 2)).cfg.bufCap ≠ some 1) ∧
    ((loaded 0).phase = .load ∧ (loaded 0).cfg.bufCap ≠ some 0 ∧ BufferIs (loaded 0).toArch) ∧
    (padded.phase ≠ .load ∧ (opened 0).phase ≠ .load ∧ faulted.phase ≠ .load) ∧
    ((loaded 2 (some 2)).phase = .load ∧ (loaded 2 (some 2)).cfg.bufCap = some (loaded 2).blen) := by
  decide

/-- The boundary lengths of V-PAD and of a finite buffer, each with a buffer of that length. -/
theorem witness_PadReplacesMessageByPadded :
    (BufferIs padded.toArch ∧ padded.phase ≠ .load) ∧
    (BufferIs (loaded (2 ^ 61)).toArch ∧ (loaded (2 ^ 61)).phase = .load ∧
      2 ^ 61 ≤ (loaded (2 ^ 61)).blen) ∧
    (BufferIs (loaded 55 (some 63)).toArch ∧ (loaded 55 (some 63)).phase = .load ∧
      (loaded 55 (some 63)).cfg.bufCap = some 63 ∧
      63 < 55 + 9 + ((55 - ((55 : Nat) : Int)) % 64).toNat) ∧
    (BufferIs (loaded 55 (some 64)).toArch ∧ (loaded 55 (some 64)).blen < 2 ^ 61 ∧
      ∀ cap, (loaded 55 (some 64)).cfg.bufCap = some cap →
        55 + 9 + ((55 - ((55 : Nat) : Int)) % 64).toNat ≤ cap) ∧
    (BufferIs (loaded (2 ^ 61 - 1)).toArch ∧ (loaded (2 ^ 61 - 1)).blen < 2 ^ 61 ∧
      (loaded (2 ^ 61 - 1)).cfg.bufCap = none) := by
  refine ⟨⟨inv_padded.buffer, by decide⟩, ⟨buffer_loaded _ _, phase_loaded _ _, (loaded_blen _ _).ge⟩,
    ⟨buffer_loaded _ _, rfl, rfl, by decide⟩, ⟨buffer_loaded _ _, ?_, ?_⟩,
    ⟨buffer_loaded _ _, ?_, rfl⟩⟩
  · show 55 < 2 ^ 61; decide
  · rintro cap ⟨⟩; decide
  · show 2 ^ 61 - 1 < 2 ^ 61; decide

theorem witness_PadCommandRealisesPadFunction :
    (([] : List Byte).length < 2 ^ 61 ∧ pad [] = .ok ([] ++ padTail 0)) ∧
    (∃ t, BufferIs (loaded 0).toArch ∧ exec .pad (loaded 0) = .next t ∧
      t.trace = (loaded 0).trace ++ [.ack]) ∧
    (BufferIs (loaded 3).toArch ∧ (loaded 3).phase = .load ∧ (loaded 3).cfg.bufCap = none) :=
  ⟨⟨by decide, rfl⟩, ⟨(loaded 0).commitPad.respond .ack, buffer_loaded _ _, rfl, rfl⟩,
    buffer_loaded _ _, rfl, rfl⟩

theorem witness_OverflowExactlyWhenBitLengthTooLong :
    (∃ t, exec .pad (loaded 0) = .next t ∧ t.trace = (loaded 0).trace ++ [.ack]) ∧
    ((loaded (2 ^ 61)).phase = .load ∧ 2 ^ 61 ≤ (loaded (2 ^ 61)).blen) :=
  ⟨⟨(loaded 0).commitPad.respond .ack, rfl, rfl⟩, phase_loaded _ _, (loaded_blen _ _).ge⟩

theorem witness_PaddingInvariantErrorIsDead :
    BufferIs (loaded 0).toArch ∧ Runs .pad (loaded 0) := ⟨filled_loaded 0, runs_pad⟩

theorem witness_LengthEncoderIsBigEndian : (0 : Nat) < 8 ∧ (7 : Nat) < 8 := by decide

theorem witness_PadProperties :
    ∃ p, pad [0x80] = .ok p ∧ [(0x80 : Byte)].length + 1 ≤ 2 ∧ 2 < p.length - 8 :=
  ⟨_, rfl, by decide, by decide⟩

theorem witness_SplitChecksAlignmentAndOpens :
    faulted.phase = .fault ∧ ((loaded 63).phase ≠ .fault ∧ (loaded 63).blen % 64 ≠ 0) ∧
    ((loaded 0).phase ≠ .fault ∧ (loaded 0).blen % 64 = 0) ∧
    ((loaded 64).phase ≠ .fault ∧ (loaded 64).blen % 64 = 0) := by decide

theorem witness_NextDeliversTheBlockOrEnd :
    (loaded 0).phase ≠ .part ∧ ((opened 1).phase = .part ∧ (opened 1).bidx = (opened 1).bcnt) ∧
    ((opened 0).phase = .part ∧ (opened 0).bidx ≠ (opened 0).bcnt ∧ BufferIs (opened 0).toArch ∧
      64 * (opened 0).bidx + 64 ≤ (opened 0).blen) ∧ Inv (opened 0) :=
  ⟨by decide, ⟨rfl, rfl⟩, ⟨rfl, by decide, (inv_opened 0 (by decide)).buffer, by decide⟩,
    inv_opened 0 (by decide)⟩

theorem witness_NextNeverLeavesTheBuffer :
    (Inv (opened 0) ∧ (opened 0).phase = .part) ∧ (Inv (opened 1) ∧ (opened 1).phase = .part) :=
  ⟨⟨inv_opened 0 (by decide), rfl⟩, inv_opened 1 (by decide), rfl⟩

theorem witness_SplitBlocksProperties :
    splitBlocks [] = .ok [] ∧ splitBlocks (zeros 64) = .ok [zeros 64] ∧
    ([] : List Byte).length < 2 ^ 61 := by decide

theorem witness_SplitAndNextRealiseSplitBlocks :
    ((zeros 64).length % 64 = 0 ∧ (zeros 1).length % 64 ≠ 0) ∧
    (BufferIs (loaded 64).toArch ∧ (loaded 64).phase ≠ .fault ∧
      splitBlocks (loaded 64).buf.bytes = .ok [zeros 64]) ∧
    (BufferIs (loaded 1).toArch ∧ (loaded 1).phase ≠ .fault ∧
      splitBlocks (loaded 1).buf.bytes = .error .align) := by decide +kernel

theorem witness_SplitRestartsTheSequence :
    Inv (opened 1) ∧ (opened 1).phase = .part ∧ 0 < (opened 1).bcnt :=
  ⟨inv_opened 1 (by decide), rfl, by decide⟩

theorem witness_PartitionSealsTheBuffer :
    (∃ t, exec .split (loaded 0) = .next t ∧ t.trace = (loaded 0).trace ++ [.ack]) ∧
    ((opened 0).phase = .part ∧ Instr.next ≠ .init ∧ Runs .next (opened 0)) :=
  ⟨⟨_, rfl, rfl⟩, rfl, by decide, _, rfl⟩

/-- Every command is accepted somewhere. -/
theorem witness_PhaseTransitionTable :
    Runs .init faulted ∧ Runs (.push 0x61) (loaded 0) ∧ Runs .pad (loaded 0) ∧
    Runs .split (loaded 0) ∧ Runs .split (loaded 1) ∧ Runs .next (opened 0) :=
  ⟨runs_init _, runs_push, runs_pad, runs_split, ⟨_, rfl⟩, ⟨_, rfl⟩⟩

theorem witness_FaultsArePrecise :
    ∃ t, exec .split (loaded 1) = .next t ∧ t.trace = (loaded 1).trace ++ [.err .align] :=
  ⟨_, rfl, rfl⟩

theorem witness_ExactlyTheThreeFaults :
    (Inv (loaded (2 ^ 61)) ∧ (loaded (2 ^ 61)).phase = .load ∧ 2 ^ 61 ≤ (loaded (2 ^ 61)).blen) ∧
    (Inv (loaded 1) ∧ (loaded 1).phase = .load ∧ (loaded 1).blen % 64 ≠ 0) ∧
    (Inv (loaded 63) ∧ (loaded 63).blen % 64 ≠ 0) :=
  ⟨⟨inv_loaded _ none nofun, rfl, (loaded_blen _ _).ge⟩, ⟨inv_loaded _ none nofun, rfl, by decide⟩,
    inv_loaded _ none nofun, by decide⟩

theorem witness_OnlyInitLeavesFault : faulted.phase = .fault ∧ Instr.next ≠ .init := by decide

theorem witness_RefusedExactlyWhen :
    (padded.withFetchWord 16 0x3000).input = .command 0x3000 :: [] ∧
    step (padded.withFetchWord 16 0x3000) = .refused .wrongPhase ∧
    step (padded.withFetchWord 16 0x3001) = .refused .invalidEncoding ∧
    step ((loaded 0 (some 63)).withFetchWord 16 0x3000) = .refused .capacity :=
  ⟨rfl, rfl, rfl, rfl⟩

theorem witness_OneResponsePerCommand :
    ((opened 0).bidx ≤ (opened 0).bcnt ∧ Runs .next (opened 0)) ∧
    ((opened 1).bidx ≤ (opened 1).bcnt ∧ Runs .next (opened 1)) ∧
    ((loaded 0).bidx ≤ (loaded 0).bcnt ∧ Runs .pad (loaded 0)) :=
  ⟨⟨by decide, _, rfl⟩, ⟨by decide, _, rfl⟩, by decide, _, rfl⟩

theorem witness_TraceGrowsByOnePerAcceptedWord :
    (∃ t, runWords [0x2061, 0x2062] State.reset = .completed t) ∧
    (∃ t, runWords [0x4000, 0x5000, 0x3000] State.reset = .refused 2 .wrongPhase t) :=
  ⟨⟨_, rfl⟩, _, rfl⟩

theorem witness_CommandFrames :
    Runs .init faulted ∧ Runs (.push 0x61) (loaded 0) ∧ Runs .pad (loaded 0) ∧
    (∃ t, exec .pad (loaded (2 ^ 61)) = .next t ∧ t.trace ≠ (loaded (2 ^ 61)).trace ++ [.ack]) ∧
    Runs .split (loaded 0) ∧ (∃ t, exec .split (loaded 1) = .next t ∧
      t.trace ≠ (loaded 1).trace ++ [.ack]) ∧ Runs .next (opened 0) := by
  refine ⟨runs_init _, runs_push, runs_pad, ⟨(loaded (2 ^ 61)).enterFault .overflow, ?_, by simp⟩,
    runs_split, ⟨_, rfl, by simp⟩, _, rfl⟩
  have h : lengthOverflows (loaded (2 ^ 61)).blen = true := lengthOverflows_eq_true (loaded_blen _ _).ge
  unfold exec execPad
  rw [if_neg (by decide), if_pos h]
  rfl

theorem witness_MessageImmutableAfterPad :
    Inv padded ∧ padded.pd = true ∧ Instr.split ≠ .init ∧ Runs .split padded :=
  ⟨inv_padded, rfl, by decide, _, rfl⟩

theorem witness_StepKeepsInvariants :
    (Inv ((loaded 0).withFetchWord 16 0x3000) ∧
      ∃ t, step ((loaded 0).withFetchWord 16 0x3000) = .next t) ∧
    Inv (opened 1) := by
  refine ⟨⟨?_, _, rfl⟩, inv_opened 1 (by decide)⟩
  have h := inv_loaded 0 none nofun
  exact ⟨h.memory, h.buffer, h.capacity, h.faultErr, h.load, nofun, h.notDone, h.padded, h.part,
    h.fault, h.blocks⟩

theorem witness_AllowedStatesNeverStop : Inv (loaded 0) ∧ Inv padded ∧ Inv (opened 0) ∧ Inv faulted :=
  ⟨inv_loaded 0 none nofun, inv_padded, inv_opened 0 (by decide), inv_faulted⟩

theorem witness_PadDoneMeansPaddedMessage :
    (Inv padded ∧ padded.pd = true) ∧ (Inv (opened 0) ∧ (opened 0).pd = true) :=
  ⟨⟨inv_padded, rfl⟩, inv_opened 0 (by decide), rfl⟩

theorem witness_OutcomeDependsOnElementsAlone :
    (loaded 0).toArch = ({ loaded 0 with trace := [.ack] } : State).toArch ∧
    (loaded 0).cfg = ({ loaded 0 with trace := [.ack] } : State).cfg := by decide

theorem witness_ResponseRecordFields :
    ∃ t d, exec .next (opened 0) = .next t ∧
      t.trace = (opened 0).trace ++ [.blk 0 true d] := runs_next

theorem witness_OnlySixStatusValues :
    (Inv (loaded 0) ∧ (loaded 0).status = 0x00) ∧ (Inv padded ∧ padded.status = 0x05) ∧
    (Inv (opened 0) ∧ (opened 0).status = 0x06) ∧ (Inv faulted ∧ faulted.status = 0x33) :=
  ⟨⟨inv_loaded 0 none nofun, by decide⟩, ⟨inv_padded, by decide⟩,
    ⟨inv_opened 0 (by decide), by decide⟩, inv_faulted, by decide⟩

theorem witness_FlatBlockByteOrder :
    (zeros 64).length = 64 ∧ (0 : Nat) < 64 ∧ (63 : Nat) < 64 ∧ 2 ^ 64 - 1 < 2 ^ 64 := by decide

theorem witness_PrepIsSplitBlocksOfPad :
    faulted.cfg.bufCap = none ∧ ([] : List Byte).length < 2 ^ 61 := by decide

theorem witness_CommandCountOfOneMessage : (loaded 0).blen = ([] : List Byte).length := rfl

theorem witness_AssemblyReadsBack :
    isPrintable ' ' = true ∧ isPrintable '#' = true ∧ isPrintable '~' = true := by decide

theorem witness_InstancesAreIndependent :
    stepInstance 0 [State.reset, faulted] = .next [State.reset, faulted] ∧
    [State.reset, faulted][0]? = some State.reset := ⟨rfl, rfl⟩

end Sys2Proof.Tests
end

section
/-! SUPPORT. Facts the state proofs share: what `PAD` appends and what the padded buffer reads as
(41_pad R104 to R108), when a command is refused for its phase (10_state R30), and the fields of
`STATUS` (R33). -/

namespace Sys2Proof.Machine

/-! ### What `PAD` appends -/

theorem padTail_eq (n : Nat) :
    padTail n = marker :: (zeros (zeroFill n) ++ be64 (bitLength n)) := rfl

theorem getElem?_padTail_zero (n : Nat) : (padTail n)[0]? = some 0x80 := rfl

theorem getElem?_padTail_fill {n k : Nat} (h₁ : 1 ≤ k) (h₂ : k ≤ zeroFill n) :
    (padTail n)[k]? = some 0x00 := by
  obtain ⟨j, rfl⟩ := Nat.exists_eq_add_of_le' h₁
  rw [padTail_eq, List.getElem?_cons_succ, List.getElem?_append_left (by simpa using h₂)]
  exact List.getElem?_replicate_of_lt h₂

theorem getElem?_padTail_length (n : Nat) {k : Nat} (h : k < 8) :
    (padTail n)[zeroFill n + 1 + k]? = some ((bitLength n).extractLsb' (56 - 8 * k) 8) := by
  rw [padTail_eq, show zeroFill n + 1 + k = (zeroFill n + k) + 1 by omega,
    List.getElem?_cons_succ, List.getElem?_append_right (by simp)]
  simpa using getElem?_be64 _ h

/-! ### The padded buffer -/

section
variable {s : State}

theorem filled_padCandidate (h : BufferIs s.toArch) :
    (padCandidate s).Filled (s.blen + (padTail s.blen).length) :=
  Memory.Filled.writeBytes h _

theorem size_padCandidate (h : BufferIs s.toArch) :
    (padCandidate s).size = s.blen + 9 + zeroFill s.blen := by
  rw [(filled_padCandidate h).size_eq, length_padTail]
  omega

/-- The postcondition of R111 on the model's own candidate. -/
theorem size_padCandidate_mod (h : BufferIs s.toArch) : (padCandidate s).size % 64 = 0 := by
  rw [size_padCandidate h, zeroFill_eq_mod]
  omega

theorem readByte_padCandidate_inside {k : Nat} (h : k < zeroFill s.blen + 9) :
    (padCandidate s).readByte (s.blen + k) = (padTail s.blen)[k]? :=
  Memory.readByte_writeBytes_inside _ _ _ (by simpa using h)

theorem readByte_padCandidate_outside {a : Nat}
    (h : a < s.blen ∨ s.blen + (padTail s.blen).length ≤ a) :
    (padCandidate s).readByte a = s.buf.readByte a :=
  Memory.readByte_writeBytes_outside _ _ _ h

theorem bufferIs_commitPad (h : BufferIs s.toArch) : BufferIs s.commitPad.toArch := by
  change (padCandidate s).Filled (padCandidate s).size
  rw [(filled_padCandidate h).size_eq]
  exact filled_padCandidate h

/-- What `PAD` commits has the layout of 10_state R38 (d). -/
theorem paddedLayout_commitPad (hbuf : BufferIs s.toArch) (hlen : s.blen < 2 ^ 61) :
    PaddedLayout s.commitPad.toArch where
  short := hlen
  bits := rfl
  length := by
    change (padCandidate s).size = s.blen + 1 + zeroFill s.blen + 8
    rw [size_padCandidate hbuf]
    omega
  aligned := size_padCandidate_mod hbuf
  markerAt := (readByte_padCandidate_inside (k := 0) (by omega)).trans (getElem?_padTail_zero _)
  fillAt i h₁ h₂ := by
    simp only [commitPad_mlen, commitPad_blen, commitPad_buf, size_padCandidate hbuf] at h₁ h₂ ⊢
    obtain ⟨k, rfl⟩ := Nat.exists_eq_add_of_le (show s.blen ≤ i by omega)
    rw [readByte_padCandidate_inside (by omega), getElem?_padTail_fill (by omega) (by omega)]
  lengthAt k hk := by
    simp only [commitPad_blen, commitPad_buf, commitPad_bitlen, size_padCandidate hbuf]
    rw [show s.blen + 9 + zeroFill s.blen - 8 + k = s.blen + (zeroFill s.blen + 1 + k) by omega,
      readByte_padCandidate_inside (by omega), getElem?_padTail_length _ hk]

end

/-! ### Refusal for the phase -/

/-- The phase test comes first in every command (R158), and nothing else refuses by that name. -/
theorem exec_refused_wrongPhase_iff (i : Instr) (s : State) :
    exec i s = .refused .wrongPhase ↔ legalIn i s.phase = false := by
  cases i with
  | init => simp [exec, execInit, legalIn]
  | push b => unfold exec execPush; split_ifs <;> simp_all
  | pad => unfold exec execPad; split_ifs <;> simp_all [raise]
  | split => unfold exec execSplit; split_ifs <;> simp_all [raise]
  | next =>
    unfold exec execNext
    split_ifs
    · simp_all
    · simp_all
    · cases s.buf.readBytes (blockAddr s.toArch) blockBytes <;> simp_all

/-! ### The fields of `STATUS` -/

section
variable (a : Arch)

theorem status_phase : a.status.extractLsb' 0 2 = a.phase.code :=
  BitVec.extractLsb'_append_eq_right

theorem status_pd : a.status.extractLsb' 2 1 = BitVec.ofBool a.pd :=
  (BitVec.extractLsb'_append_eq_of_le (by decide)).trans BitVec.extractLsb'_append_eq_right

theorem status_bit3 : a.status.extractLsb' 3 1 = 0 :=
  (BitVec.extractLsb'_append_eq_of_le (by decide)).trans <|
    (BitVec.extractLsb'_append_eq_of_le (by decide)).trans BitVec.extractLsb'_append_eq_right

theorem status_err : a.status.extractLsb' 4 2 = errCode a.err :=
  (BitVec.extractLsb'_append_eq_of_le (by decide)).trans <|
    (BitVec.extractLsb'_append_eq_of_le (by decide)).trans <|
      (BitVec.extractLsb'_append_eq_of_le (by decide)).trans BitVec.extractLsb'_append_eq_right

theorem status_high : a.status.extractLsb' 6 2 = 0 :=
  (BitVec.extractLsb'_append_eq_of_le (by decide)).trans <|
    (BitVec.extractLsb'_append_eq_of_le (by decide)).trans <|
      (BitVec.extractLsb'_append_eq_of_le (by decide)).trans BitVec.extractLsb'_append_eq_left

end

end Sys2Proof.Machine
end

section
/-! SUPPORT. The invariant of 10_state R38: it holds after reset, every shared update keeps it under
the guard its command tests, and so every step does. -/

namespace Sys2Proof.Machine

/-- The padded layout speaks of the buffer and its three lengths only, so a command that keeps them
keeps it. -/
theorem PaddedLayout.congr {a b : Arch} (h : PaddedLayout a) (hbuf : b.buf = a.buf)
    (hblen : b.blen = a.blen) (hmlen : b.mlen = a.mlen) (hbits : b.bitlen = a.bitlen) :
    PaddedLayout b := by
  obtain ⟨short, bits, length, aligned, markerAt, fillAt, lengthAt⟩ := h
  constructor <;> simp only [hbuf, hblen, hmlen, hbits] <;> assumption

namespace Inv

section
variable {s : State}

/-- A state whose nine elements are the reset values meets the invariant: an empty buffer fits every
capacity. -/
theorem of_reset (helems : s.toArch = Arch.reset)
    (htrace : ∀ r ∈ s.trace, r.wellFormed = true) : Inv s where
  memory := by simp [helems, Memory.wf]
  buffer := by simp [helems, BufferIs, Memory.Filled]
  capacity := by simp [helems]
  faultErr := by simp [helems]
  load := by simp [helems]
  done := by simp [helems]
  notDone := by simp [helems]
  padded := by simp [helems]
  part := by simp [helems]
  fault := by simp [helems]
  blocks := htrace

theorem err_eq_none (h : Inv s) (hphase : s.phase ≠ .fault) : s.err = none :=
  not_not.1 (mt h.faultErr.2 hphase)

/-- Outside `LOAD` and `FAULT` the buffer is whole blocks: after `PAD` by its layout, after `SPLIT`
by the alignment test. So `ALIGN` is taken from `LOAD` only. -/
theorem load_of_not_aligned (h : Inv s) (hphase : s.phase ≠ .fault) (hb : s.blen % 64 ≠ 0) :
    s.phase = .load := by
  cases hp : s.phase with
  | load => rfl
  | padded => exact absurd (h.done (h.padded hp).1).aligned hb
  | part => exact absurd (h.part hp).1 hb
  | fault => exact absurd hp hphase

/-- `PD = 1` closes the buffer: the phase is no longer `LOAD`. -/
theorem phase_ne_load_of_pd (h : Inv s) (hpd : s.pd = true) : s.phase ≠ .load :=
  fun hphase => by simp [(h.load hphase).1] at hpd

/-- The invariant does not speak of the command stream. -/
theorem setInput (h : Inv s) (rest : List Event) : Inv { s with input := rest } :=
  ⟨h.memory, h.buffer, h.capacity, h.faultErr, h.load, h.done, h.notDone, h.padded, h.part,
    h.fault, h.blocks⟩

/-- A response touches the trace only. -/
theorem respond (h : Inv s) {r : Response} (hr : r.wellFormed = true) : Inv (s.respond r) where
  memory := h.memory
  buffer := h.buffer
  capacity := h.capacity
  faultErr := h.faultErr
  load := h.load
  done := h.done
  notDone := h.notDone
  padded := h.padded
  part := h.part
  fault := h.fault
  blocks q hq := by
    rcases List.mem_append.1 hq with hq | hq
    · exact h.blocks q hq
    · rwa [List.mem_singleton.1 hq]

theorem clear (h : Inv s) : Inv s.clear := of_reset rfl h.blocks

theorem appendByte (h : Inv s) (hphase : s.phase = .load) (hroom : s.cfg.bufCap ≠ some s.blen)
    (b : Byte) : Inv (s.appendByte b) where
  memory := Memory.writeByte_wf h.memory _ _
  buffer := Memory.Filled.writeByte h.buffer b
  capacity cap hcap := by
    have hle := h.capacity cap hcap
    have hne : cap ≠ s.blen := fun he => hroom (he ▸ hcap)
    simp only [appendByte_blen]
    omega
  faultErr := h.faultErr
  load := h.load
  done hpd := absurd hphase (h.phase_ne_load_of_pd hpd)
  notDone := h.notDone
  padded hp := by simp [hphase] at hp
  part hp := by simp [hphase] at hp
  fault := h.fault
  blocks := h.blocks

theorem commitPad (h : Inv s) (hphase : s.phase = .load) (hlen : s.blen < 2 ^ 61)
    (hcap : exceedsCap s (s.blen + 9 + zeroFill s.blen) = false) : Inv s.commitPad := by
  obtain ⟨-, -, -, hbcnt, hbidx, herr⟩ := h.load hphase
  exact {
    memory := (bufferIs_commitPad h.buffer).wf
    buffer := bufferIs_commitPad h.buffer
    capacity := by simpa [size_padCandidate h.buffer] using exceedsCap_eq_false hcap
    faultErr := by simp [herr]
    load := by simp
    done := fun _ => paddedLayout_commitPad h.buffer hlen
    notDone := by simp
    padded := by simp [hbcnt, hbidx]
    part := by simp
    fault := by simp
    blocks := h.blocks }

theorem openSequence (h : Inv s) (hphase : s.phase ≠ .fault) (haligned : s.blen % 64 = 0) :
    Inv s.openSequence where
  memory := h.memory
  buffer := h.buffer
  capacity := h.capacity
  faultErr := by simp [h.err_eq_none hphase]
  load := by simp
  done hpd := (h.done hpd).congr rfl rfl rfl rfl
  notDone := h.notDone
  padded := by simp
  part := by simp [haligned]
  fault := by simp
  blocks := h.blocks

theorem advance (h : Inv s) (hphase : s.phase = .part) (hmore : s.bidx ≠ s.bcnt) :
    Inv s.advance where
  memory := h.memory
  buffer := h.buffer
  capacity := h.capacity
  faultErr := h.faultErr
  load := by simp [hphase]
  done hpd := (h.done hpd).congr rfl rfl rfl rfl
  notDone := h.notDone
  padded := by simp [hphase]
  part := by
    obtain ⟨haligned, hcount, hle⟩ := h.part hphase
    intro _
    exact ⟨haligned, hcount, by simp only [advance_bidx, advance_bcnt]; omega⟩
  fault := by simp [hphase]
  blocks := h.blocks

/-- Both live faults are taken from `LOAD`, where everything a fault state must have at zero is. -/
theorem enterFault (h : Inv s) (hphase : s.phase = .load) {k : ErrKind}
    (hk : k = .overflow ∨ k = .align) : Inv (s.enterFault k) := by
  obtain ⟨hpd, hmlen, hbits, hbcnt, hbidx, -⟩ := h.load hphase
  have hfields : Inv { s with err := some k, phase := .fault } :=
    { memory := h.memory
      buffer := h.buffer
      capacity := h.capacity
      faultErr := by simp
      load := nofun
      done := by simp [hpd]
      notDone := h.notDone
      padded := nofun
      part := nofun
      fault := by simpa [hpd, hbcnt, hbidx] using hk
      blocks := h.blocks }
  exact hfields.respond rfl

end

/-- Every accepted command keeps the invariant. -/
theorem exec {i : Instr} {s t : State} (h : Inv s) (ht : exec i s = .next t) : Inv t := by
  cases i with
  | init =>
    cases ht
    exact h.clear.respond rfl
  | push b =>
    obtain ⟨hphase, hroom, rfl⟩ := execPush_next ht
    exact (h.appendByte hphase hroom b).respond rfl
  | pad =>
    obtain ⟨hphase, ⟨-, rfl⟩ | ⟨hlen, hcap, ⟨hbad, rfl⟩ | ⟨-, rfl⟩⟩⟩ := execPad_next ht
    · exact h.enterFault hphase (.inl rfl)
    · exact absurd (size_padCandidate_mod h.buffer) hbad
    · exact (h.commitPad hphase hlen hcap).respond rfl
  | split =>
    obtain ⟨hphase, ⟨hb, rfl⟩ | ⟨haligned, rfl⟩⟩ := execSplit_next ht
    · exact h.enterFault (h.load_of_not_aligned hphase hb) (.inr rfl)
    · exact (h.openSequence hphase haligned).respond rfl
  | next =>
    obtain ⟨hphase, ⟨-, rfl⟩ | ⟨hmore, d, hd, rfl⟩⟩ := execNext_next ht
    · exact h.respond rfl
    · exact (h.advance hphase hmore).respond (by
        simpa [Response.wellFormed] using Memory.readBytes_length hd)

end Inv

end Sys2Proof.Machine
end

section
/-! The state's statements settled: what every step keeps, the phase table, frames, reset and
status (spec/10_state.md). -/

namespace Sys2Proof.Machine

/-- Settles O35: an idle step changes nothing, a reset clears every element, and a command keeps the
invariant update by update. -/
theorem stepKeepsInvariants : Obligations.StepKeepsInvariants := by
  intro s t h ht
  rcases step_next ht with ⟨-, rfl⟩ | ⟨rest, -, rfl⟩ | ⟨w, rest, i, -, -, hexec⟩
  · exact h
  · exact (h.setInput rest).clear
  · exact (h.setInput rest).exec hexec

/-- Settles O26: the refusals are `legalIn` read phase by phase, the next phases the commands'
inversion lemmas. -/
theorem phaseTransitionTable : Obligations.PhaseTransitionTable := by
  constructor
  · intro i s
    rw [exec_refused_wrongPhase_iff]
    cases i <;> cases s.phase <;> simp [legalIn]
  · intro i s t h
    cases i with
    | init => cases h; rfl
    | push b =>
      obtain ⟨hphase, -, rfl⟩ := execPush_next h
      exact hphase
    | pad => obtain ⟨-, ⟨-, rfl⟩ | ⟨-, -, ⟨-, rfl⟩ | ⟨-, rfl⟩⟩⟩ := execPad_next h <;> simp
    | split => obtain ⟨-, ⟨hb, rfl⟩ | ⟨hb, rfl⟩⟩ := execSplit_next h <;> simp [hb]
    | next => obtain ⟨hphase, ⟨-, rfl⟩ | ⟨-, d, -, rfl⟩⟩ := execNext_next h <;> exact hphase

/-- Settles O33: the parameter and the stream by `exec_cfg_input`, the rest from what each command
does. -/
theorem commandFrames : Obligations.CommandFrames := by
  intro i s t h
  obtain ⟨hcfg, hinput⟩ := exec_cfg_input h
  refine ⟨hcfg, hinput, ?_⟩
  cases i with
  | init => trivial
  | push b =>
    obtain ⟨-, -, rfl⟩ := execPush_next h
    exact ⟨rfl, rfl, rfl, rfl, rfl, rfl, rfl, fun a ha => Memory.readByte_writeByte_other _ b ha⟩
  | pad =>
    obtain ⟨-, ⟨-, rfl⟩ | ⟨-, -, ⟨-, rfl⟩ | ⟨-, rfl⟩⟩⟩ := execPad_next h
    · simp
    · simp
    · exact ⟨rfl, rfl, fun _ => rfl, fun hack => absurd rfl hack,
        fun a ha => readByte_padCandidate_outside ha⟩
  | split => obtain ⟨-, ⟨-, rfl⟩ | ⟨-, rfl⟩⟩ := execSplit_next h <;> simp
  | next => obtain ⟨-, ⟨-, rfl⟩ | ⟨-, d, -, rfl⟩⟩ := execNext_next h <;> simp

/-- Settles O34: with `PD = 1` the phase is not `LOAD`, so `PUSH` and `PAD` are refused; `SPLIT` and
`NEXT` write none of these elements. -/
theorem messageImmutableAfterPad : Obligations.MessageImmutableAfterPad := by
  intro i s t hinv hpd hi h
  have hphase := hinv.phase_ne_load_of_pd hpd
  cases i with
  | init => exact absurd rfl hi
  | push b => exact absurd (execPush_next h).1 hphase
  | pad => exact absurd (execPad_next h).1 hphase
  | split => obtain ⟨-, ⟨-, rfl⟩ | ⟨-, rfl⟩⟩ := execSplit_next h <;> simp [hpd]
  | next => obtain ⟨-, ⟨-, rfl⟩ | ⟨-, d, -, rfl⟩⟩ := execNext_next h <;> simp [hpd]

/-- Settles O42: the invariant leaves one pair of `PD` and `ERR` in `LOAD` and in `PADDED`, and two
in `PART` and in `FAULT`. -/
theorem onlySixStatusValues : Obligations.OnlySixStatusValues := by
  intro s h
  cases hp : s.phase with
  | load =>
    obtain ⟨hpd, -, -, -, -, he⟩ := h.load hp
    simp [Arch.status, hp, hpd, he, Phase.code, errCode]
  | padded =>
    simp [Arch.status, hp, (h.padded hp).1, h.err_eq_none (by simp [hp]), Phase.code, errCode]
  | part =>
    cases hpd : s.pd <;>
      simp [Arch.status, hp, hpd, h.err_eq_none (by simp [hp]), Phase.code, errCode]
  | fault =>
    obtain ⟨hpd, -, -, he | he⟩ := h.fault hp <;>
      simp [Arch.status, hp, hpd, he, Phase.code, errCode, ErrKind.code]

/-- Settles O5: the fetch takes the word off the stream, and the decoded command runs on what is
left. -/
theorem stepRunsTheDecodedCommand : Obligations.StepRunsTheDecodedCommand := by
  intro s w rest i hinput hdecode
  simp [step, fetch, hinput, hdecode]

/-- Settles O7, from the reset record and `exec_init`. -/
theorem resetValues : Obligations.ResetValues :=
  ⟨⟨rfl, rfl, rfl, rfl, rfl, rfl, rfl, rfl, rfl, rfl⟩, fun _ => rfl,
    fun s => ⟨_, exec_init s, rfl⟩⟩

/-- Settles O36: the elements are the reset values and the trace is empty. -/
theorem resetMeetsInvariants : Obligations.ResetMeetsInvariants :=
  fun _ => Inv.of_reset rfl nofun

/-- Settles O40, field by field. -/
theorem statusFields : Obligations.StatusFields :=
  ⟨⟨rfl, rfl, rfl, rfl⟩, fun a =>
    ⟨status_phase a, status_pd a, status_bit3 a, status_err a, status_high a, rfl⟩⟩

end Sys2Proof.Machine
end

section
/-! Several instances side by side (20_memory R67, 60_exceptions R170): what a step of one of them
can do to the list. -/

namespace Sys2Proof.Machine

/-- What a step of instance `k` can do when it completes: nothing where there is no such instance,
and otherwise put the instance's own next state in its place. -/
theorem stepInstance_next {k : Nat} {ms ms' : List State} (h : stepInstance k ms = .next ms') :
    (ms[k]? = none ∧ ms' = ms) ∨
      ∃ s t, ms[k]? = some s ∧ step s = .next t ∧ ms' = ms.set k t := by
  unfold stepInstance at h
  split at h
  next hk => exact .inl ⟨hk, by cases h; rfl⟩
  next s hk =>
    split at h
    next t hst => exact .inr ⟨s, t, hk, hst, by cases h; rfl⟩
    next => cases h
    next => cases h

/-- Settles O47: either the list is unchanged, or it is `List.set` at `k`, which keeps the length
and every other element. -/
theorem instancesAreIndependent : Obligations.InstancesAreIndependent := by
  intro k ms ms' h
  obtain ⟨hk, rfl⟩ | ⟨s, t, hk, hst, rfl⟩ := stepInstance_next h
  · exact ⟨rfl, fun _ _ => rfl, fun s hs => by simp [hk] at hs⟩
  · refine ⟨List.length_set, fun j hj => List.getElem?_set_ne hj.symm, fun s' hs' => ?_⟩
    obtain rfl : s = s' := Option.some.inj (hk.symm.trans hs')
    have hlt : k < ms.length := (List.getElem?_eq_some_iff.mp hk).1
    exact ⟨t, hst, List.getElem?_set_self hlt⟩

end Sys2Proof.Machine
end

section
/-! The decoder and the encoder settled (30_encoding R70 to R74): a word is a command exactly when
its fields are well formed, the encoder is the decoder's inverse, and the opcode table's rows are its
domain. -/

namespace Sys2Proof

/-! ### Which fields are a command's -/

theorem encodesInItsRow (i : Instr) : Laws.EncodesInItsRow.Statement i :=
  match i with
  | .init => Laws.EncodesInItsRow.init
  | .push b => Laws.EncodesInItsRow.push b
  | .pad => Laws.EncodesInItsRow.pad
  | .split => Laws.EncodesInItsRow.split
  | .next => Laws.EncodesInItsRow.next

@[simp] theorem decodeFields_encodeFields (i : Instr) : decodeFields (encodeFields i) = .ok i := by
  cases i <;> rfl

theorem decodeFields_eq_ok_iff {f : Fields} {i : Instr} :
    decodeFields f = .ok i ↔ f = encodeFields i :=
  ⟨fun h => (decodeFields_ok h).symm, fun h => h ▸ decodeFields_encodeFields i⟩

/-- The codes R71 reserves are 0 and 6 to 15. -/
theorem Fields.opAssigned_eq_false_iff (f : Fields) :
    f.opAssigned = false ↔ f.op = 0 ∨ 6 ≤ f.op.toNat := by
  obtain ⟨op, mbz, imm8⟩ := f
  simp only [Fields.opAssigned]
  revert op
  decide

/-- The ways of being `invalid` that R74 lists are the ways of not being well formed. -/
theorem Fields.wellFormed_eq_false_iff (f : Fields) :
    f.wellFormed = false ↔ f.op = 0 ∨ 6 ≤ f.op.toNat ∨ f.mbz ≠ 0 ∨ (f.op ≠ 2 ∧ f.imm8 ≠ 0) := by
  rw [← or_assoc, ← f.opAssigned_eq_false_iff]
  rw [Fields.wellFormed, Bool.and_eq_false_iff, Bool.and_eq_false_iff, or_assoc]
  simp [Fields.mbzClear, Fields.immLegal]

/-! ### Words -/

theorem decode_eq_ok_iff {w : Word} {i : Instr} :
    decode w = .ok i ↔ Fields.ofWord w = encodeFields i := decodeFields_eq_ok_iff

@[simp] theorem decode_encode (i : Instr) : decode (encode i) = .ok i :=
  decode_eq_ok_iff.2 (ofWord_toWord _)

theorem decode_eq_ok_iff_eq_encode {w : Word} {i : Instr} : decode w = .ok i ↔ w = encode i := by
  refine ⟨fun h => ?_, fun h => h ▸ decode_encode i⟩
  rw [encode, ← decode_eq_ok_iff.1 h, toWord_ofWord]

theorem encode_injective : Function.Injective encode := fun i j h =>
  Except.ok.inj ((decode_encode i).symm.trans (h ▸ decode_encode j))

theorem toWord_injective : Function.Injective Fields.toWord :=
  Function.LeftInverse.injective ofWord_toWord

/-- A word whose fields are not well formed decodes to nothing: R73's rejecting tests together. -/
theorem decode_error_of_not_wellFormed {w : Word} (h : (Fields.ofWord w).wellFormed = false) :
    ∃ e, decode w = .error e := by
  cases hd : decode w with
  | error e => exact ⟨e, rfl⟩
  | ok i =>
    have hwf : (Fields.ofWord w).wellFormed = true :=
      decode_eq_ok_iff.1 hd ▸ (encodesInItsRow i).1
    simp [h] at hwf

/-- A word decodes to the command whose operation code and operand it carries, `mbz` being zero. -/
theorem decode_ok_of_fields {w : Word} {i : Instr} (hmbz : w.extractLsb' 8 4 = (encodeFields i).mbz)
    (himm : w.extractLsb' 0 8 = (encodeFields i).imm8)
    (hop : w.extractLsb' 12 4 = (encodeFields i).op) : decode w = .ok i :=
  decode_eq_ok_iff.2 (by rw [Fields.ofWord, hop, hmbz, himm])

theorem encode_push (b : Byte) : encode (.push b) = 0x2000 + b.setWidth 16 := by
  apply BitVec.eq_of_toNat_eq
  have hb := b.isLt
  have happend : (encode (.push b)).toNat = 0x20 <<< 8 + b.toNat := by
    rw [Nat.shiftLeft_add_eq_or_of_lt hb]
    exact BitVec.toNat_append (2#4 ++ 0#4) b
  rw [happend, BitVec.toNat_add, BitVec.toNat_setWidth]
  change 0x2000 + b.toNat = (0x2000 + b.toNat % 2 ^ 16) % 2 ^ 16
  omega

/-- Settles O2: each accepting test of R73 fixes all three fields, each rejecting test makes them
ill formed, and both directions of the round trip say that a command's word is its encoding. -/
theorem decoderAndEncoderAreInverse : Obligations.DecoderAndEncoderAreInverse := by
  refine ⟨fun w => ?_, ⟨rfl, rfl, rfl, rfl, encode_push⟩, decode_encode,
    fun _ _ h => (decode_eq_ok_iff_eq_encode.1 h).symm⟩
  have hreject := fun h =>
    decode_error_of_not_wellFormed ((Fields.ofWord w).wellFormed_eq_false_iff.2 h)
  exact ⟨fun hmbz => hreject (.inr (.inr (.inl hmbz))),
    fun hmbz hop => decode_ok_of_fields hmbz rfl hop,
    fun _ hop himm => hreject (.inr (.inr (.inr ⟨hop, himm⟩))),
    decode_ok_of_fields (i := .init), decode_ok_of_fields (i := .pad),
    decode_ok_of_fields (i := .split), decode_ok_of_fields (i := .next),
    fun hop => hreject (hop.imp_right .inl)⟩

/-! ### The opcode table -/

/-- A row with the full mask is one word. -/
theorem decode_eq_ok_iff_and_ones (w : Word) (i : Instr) :
    decode w = .ok i ↔ w &&& 0xFFFF = encode i := by
  have hones : w &&& 0xFFFF = w := BitVec.and_allOnes
  rw [hones, decode_eq_ok_iff_eq_encode]

/-- The mask of `PUSH` drops `imm8` and leaves the other two fields. -/
theorem toWord_and_mask (f : Fields) : f.toWord &&& 0xFF00 = Fields.toWord ⟨f.op, f.mbz, 0⟩ := by
  change (f.op ++ f.mbz ++ f.imm8) &&& (BitVec.allOnes 4 ++ BitVec.allOnes 4 ++ 0#8) =
    f.op ++ f.mbz ++ 0#8
  simp only [BitVec.and_append, BitVec.and_allOnes, BitVec.and_zero]

theorem and_mask_eq_iff (w : Word) :
    w &&& 0xFF00 = 0x2000 ↔ w.extractLsb' 12 4 = 2 ∧ w.extractLsb' 8 4 = 0 := by
  have hpattern : (0x2000 : Word) = Fields.toWord ⟨2, 0, 0⟩ := rfl
  have hmask : w &&& 0xFF00 = Fields.toWord ⟨w.extractLsb' 12 4, w.extractLsb' 8 4, 0⟩ := by
    conv_lhs => rw [← toWord_ofWord w]
    exact toWord_and_mask _
  rw [hmask, hpattern, toWord_injective.eq_iff, Fields.mk.injEq]
  simp

theorem decode_eq_push_iff (w : Word) (b : Byte) :
    decode w = .ok (.push b) ↔ w &&& 0xFF00 = 0x2000 ∧ b = w.extractLsb' 0 8 := by
  rw [decode_eq_ok_iff, and_mask_eq_iff, and_assoc, Fields.ofWord, encodeFields, Fields.mk.injEq,
    eq_comm (a := b)]

/-- A word that decodes is covered by its command's row and by no other. -/
theorem filter_covers_of_decode {w : Word} {i : Instr} (h : decode w = .ok i) :
    (opcodeTable.filter fun r => r.covers w) = [i.row] := by
  rw [decode_eq_ok_iff_eq_encode.1 h]
  exact (encodesInItsRow i).2

/-- A word that a row covers is a command. -/
theorem exists_decode_of_covers {w : Word} {r : TableRow} (hr : r ∈ opcodeTable)
    (h : r.covers w = true) : ∃ i, decode w = .ok i := by
  have hcovers : w &&& r.mask = r.pattern := by simpa [TableRow.covers] using h
  simp only [opcodeTable, List.mem_cons, List.not_mem_nil, or_false] at hr
  obtain rfl | rfl | rfl | rfl | rfl := hr
  · exact ⟨.init, (decode_eq_ok_iff_and_ones w _).2 hcovers⟩
  · exact ⟨.push _, (decode_eq_push_iff w _).2 ⟨hcovers, rfl⟩⟩
  · exact ⟨.pad, (decode_eq_ok_iff_and_ones w _).2 hcovers⟩
  · exact ⟨.split, (decode_eq_ok_iff_and_ones w _).2 hcovers⟩
  · exact ⟨.next, (decode_eq_ok_iff_and_ones w _).2 hcovers⟩

theorem exists_decode_iff (w : Word) :
    (∃ i, decode w = .ok i) ↔ ∃ r ∈ opcodeTable, r.covers w = true := by
  refine ⟨fun ⟨i, h⟩ => ⟨i.row, ?_⟩, fun ⟨r, hr, h⟩ => exists_decode_of_covers hr h⟩
  have hrow : i.row ∈ opcodeTable.filter fun r => r.covers w := by
    simp [filter_covers_of_decode h]
  exact List.mem_filter.1 hrow

/-- No word lies in two rows. -/
theorem length_filter_covers_le_one (w : Word) :
    (opcodeTable.filter fun r => r.covers w).length ≤ 1 := by
  cases hd : decode w with
  | ok i => simp [filter_covers_of_decode hd]
  | error e =>
    have hnone : (opcodeTable.filter fun r => r.covers w) = [] :=
      List.filter_eq_nil_iff.2 fun r hr h => by
        obtain ⟨i, hi⟩ := exists_decode_of_covers hr h
        simp [hd] at hi
    simp [hnone]

/-! ### Counting the commands -/

/-- Every command: the four without an operand, and `PUSH` of every byte. -/
def allInstrs : List Instr :=
  [.init, .pad, .split, .next] ++ (List.finRange 256).map fun k => .push (BitVec.ofFin k)

theorem mem_allInstrs (i : Instr) : i ∈ allInstrs := by
  cases i with
  | push b => exact List.mem_append_right _ (List.mem_map.2 ⟨b.toFin, List.mem_finRange _, rfl⟩)
  | init | pad | split | next => simp [allInstrs]

theorem nodup_allInstrs : allInstrs.Nodup := by
  have hpush : Function.Injective fun k : Fin 256 => Instr.push (BitVec.ofFin k) :=
    fun _ _ h => BitVec.ofFin.inj (Instr.push.inj h)
  refine List.Nodup.append (by decide) ((List.nodup_finRange 256).map hpush) ?_
  simp [List.Disjoint]

theorem length_allInstrs : allInstrs.length = 260 := by simp [allInstrs]

/-- Settles O3: a row's words are the encodings of its commands, so rows are disjoint and the words
that decode are as many as there are commands. -/
theorem opcodeMapIsTheTable : Obligations.OpcodeMapIsTheTable :=
  ⟨fun w => ⟨decode_eq_ok_iff_and_ones w _, decode_eq_push_iff w, decode_eq_ok_iff_and_ones w _,
      decode_eq_ok_iff_and_ones w _, decode_eq_ok_iff_and_ones w _⟩,
    length_filter_covers_le_one, exists_decode_iff,
    allInstrs.map encode, nodup_allInstrs.map encode_injective,
    by rw [List.length_map, length_allInstrs],
    fun w => by simp [mem_allInstrs, decode_eq_ok_iff_eq_encode, eq_comm (a := w)]⟩

/-- Settles O1, word by word. -/
theorem specWordsDecode : Obligations.SpecWordsDecode :=
  ⟨rfl, rfl, rfl, rfl, rfl, rfl, rfl, rfl, rfl⟩

end Sys2Proof

namespace Sys2Proof.Machine

theorem step_invalid {s : State} {w : Word} {rest : List Event} {e : Invalid}
    (hinput : s.input = .command w :: rest) (hdecode : decode w = .error e) :
    step s = .refused .invalidEncoding := by
  simp [step, fetch, hinput, hdecode]

/-- Settles O4: a malformed word decodes to nothing, and the step refuses it whatever the state. -/
theorem invalidWordsAreRefused : Obligations.InvalidWordsAreRefused := by
  refine ⟨fun s w rest hinput hw => ?_, fun s rest =>
    ⟨fun hinput => step_invalid (e := .reservedOp) hinput rfl,
      fun hinput => step_invalid (e := .mbzNonzero) hinput rfl⟩⟩
  obtain ⟨e, he⟩ := decode_error_of_not_wellFormed ((Fields.wellFormed_eq_false_iff _).2 hw)
  exact step_invalid hinput he

end Sys2Proof.Machine
end

section
/-! Responses settled (30_encoding R76, R78, R79): one per accepted command, the fields of a block
response, and the flattened block. -/

namespace Sys2Proof.Machine

/-- Settles O31: each command's inversion lemma names the one response it appends. -/
theorem oneResponsePerCommand : Obligations.OneResponsePerCommand := by
  intro i s t hle h
  cases i with
  | init => cases h; exact ⟨_, rfl, rfl⟩
  | push b =>
    obtain ⟨-, -, rfl⟩ := execPush_next h
    exact ⟨_, rfl, rfl⟩
  | pad =>
    obtain ⟨-, ⟨-, rfl⟩ | ⟨-, -, ⟨-, rfl⟩ | ⟨-, rfl⟩⟩⟩ := execPad_next h
    · exact ⟨_, rfl, .inr (.inl rfl)⟩
    · exact ⟨_, rfl, .inr (.inr rfl)⟩
    · exact ⟨_, rfl, .inl rfl⟩
  | split =>
    obtain ⟨-, ⟨-, rfl⟩ | ⟨-, rfl⟩⟩ := execSplit_next h
    · exact ⟨_, rfl, .inr rfl⟩
    · exact ⟨_, rfl, .inl rfl⟩
  | next =>
    obtain ⟨-, ⟨hend, rfl⟩ | ⟨hmore, d, -, rfl⟩⟩ := execNext_next h
    · exact ⟨_, rfl, .inr ⟨hend, rfl⟩⟩
    · exact ⟨_, rfl, .inl ⟨lt_of_le_of_ne hle hmore, _, d, rfl⟩⟩

/-- Only `NEXT` answers a block, and the response is read off the state it ran in. -/
theorem exec_answers_blk {i : Instr} {s t : State} {index : Nat} {last : Bool} {data : List Byte}
    (h : exec i s = .next t) (htrace : t.trace = s.trace ++ [.blk index last data]) :
    i = .next ∧ index = s.bidx ∧ last = s.lastBit ∧
      s.buf.readBytes (64 * s.bidx) 64 = some data := by
  cases i with
  | init => cases h; simp at htrace
  | push b => obtain ⟨-, -, rfl⟩ := execPush_next h; simp at htrace
  | pad => obtain ⟨-, ⟨-, rfl⟩ | ⟨-, -, ⟨-, rfl⟩ | ⟨-, rfl⟩⟩⟩ := execPad_next h <;> simp at htrace
  | split => obtain ⟨-, ⟨-, rfl⟩ | ⟨-, rfl⟩⟩ := execSplit_next h <;> simp at htrace
  | next =>
    obtain ⟨-, ⟨-, rfl⟩ | ⟨-, d, hd, rfl⟩⟩ := execNext_next h
    · simp at htrace
    · simp only [respond_trace, advance_trace, List.append_cancel_left_eq, List.cons.injEq,
        Response.blk.injEq, and_true] at htrace
      obtain ⟨rfl, rfl, rfl⟩ := htrace
      exact ⟨rfl, rfl, rfl, hd⟩

/-- Settles O41: the block's bytes are those `NEXT` read at `64 * BIDX`. -/
theorem responseRecordFields : Obligations.ResponseRecordFields := by
  refine ⟨⟨rfl, fun _ _ _ => rfl, rfl, fun _ => rfl, rfl, rfl, rfl⟩, ?_⟩
  intro i s t index last data h htrace
  obtain ⟨hi, rfl, rfl, hread⟩ := exec_answers_blk h htrace
  exact ⟨hi, rfl, beq_iff_eq, Memory.readBytes_length hread,
    fun j hj => Memory.getElem?_of_readBytes hread hj⟩

/-! ### Big-endian values -/

theorem beValue_append_singleton (bs : List Byte) (b : Byte) :
    beValue (bs ++ [b]) = beValue bs * 256 + b.toNat := by simp [beValue]

/-- The base-256 digits of a big-endian value, least significant first. -/
def leDigits (bs : List Byte) : List Nat := bs.reverse.map BitVec.toNat

theorem lt_of_mem_leDigits {bs : List Byte} : ∀ x ∈ leDigits bs, x < 256 := by
  simp only [leDigits, List.mem_map]
  rintro _ ⟨b, -, rfl⟩
  exact b.isLt

theorem beValue_eq_ofDigits (bs : List Byte) : beValue bs = Nat.ofDigits 256 (leDigits bs) := by
  induction bs using List.reverseRecOn with
  | nil => rfl
  | append_singleton bs b ih =>
    rw [beValue_append_singleton, ih]
    simp [leDigits, Nat.ofDigits_cons]
    omega

theorem beValue_lt (bs : List Byte) : beValue bs < 2 ^ (8 * bs.length) := by
  rw [beValue_eq_ofDigits, pow_mul]
  simpa [leDigits] using Nat.ofDigits_lt_base_pow_length (by decide) lt_of_mem_leDigits

/-- A value as wide as its bytes is not truncated. -/
theorem toNat_ofNat_beValue {bs : List Byte} {w : Nat} (h : 8 * bs.length = w) :
    (BitVec.ofNat w (beValue bs)).toNat = beValue bs := by
  subst h
  exact Nat.mod_eq_of_lt (beValue_lt bs)

/-- Byte `j` of a big-endian value, `k` bytes before the last. -/
theorem beValue_div_mod {bs : List Byte} {j k : Nat} (hk : j + k + 1 = bs.length) :
    beValue bs / 256 ^ k % 256 = (bs[j]'(by omega)).toNat := by
  have hlen : k < (leDigits bs).length := by simp [leDigits]; omega
  rw [beValue_eq_ofDigits, Nat.ofDigits_div_pow_eq_ofDigits_drop k (by decide) _ lt_of_mem_leDigits,
    Nat.ofDigits_mod_eq_head!, List.drop_eq_getElem_cons hlen, List.head!_cons,
    Nat.mod_eq_of_lt (lt_of_mem_leDigits _ (List.getElem_mem hlen))]
  simp [leDigits, show bs.length - 1 - k = j by omega]

theorem toNat_flatData {d : List Byte} (h : d.length = 64) : (flatData d).toNat = beValue d :=
  toNat_ofNat_beValue (by rw [h])

theorem getElem?_eq_extract_flatData {d : List Byte} (h : d.length = 64) {j : Nat} (hj : j < 64) :
    d[j]? = some ((flatData d).extractLsb' (504 - 8 * j) 8) := by
  rw [List.getElem?_eq_getElem (by omega), Option.some_inj]
  apply BitVec.eq_of_toNat_eq
  rw [BitVec.extractLsb'_toNat, toNat_flatData h, Nat.shiftRight_eq_div_pow,
    show 504 - 8 * j = 8 * (63 - j) by omega, pow_mul]
  exact (beValue_div_mod (k := 63 - j) (by omega)).symm

theorem flatIndex_of_lt {n : Nat} (h : n < 2 ^ 64) : flatIndex n = some (BitVec.ofNat 64 n) :=
  if_pos h

/-- Settles O43: the flattened value has the block's bytes as its base-256 digits, most significant
first, and an index below 2^64 is not truncated. -/
theorem flatBlockByteOrder : Obligations.FlatBlockByteOrder :=
  ⟨fun _ hd _ hj => getElem?_eq_extract_flatData hd hj,
    fun _ hn => ⟨_, flatIndex_of_lt hn, Nat.mod_eq_of_lt hn⟩⟩

end Sys2Proof.Machine
end

section
/-! Assembly lines settled (30_encoding R80): what a `PUSH` line reads as, given its operand. -/

namespace Sys2Proof.Machine

theorem hexDigit_hexChar {n : Nat} (h : n < 16) : hexDigit (hexChar n) = some n := by
  revert n
  decide

theorem parseLine_push (o : List Char) :
    parseLine ('P' :: 'U' :: 'S' :: 'H' :: ' ' :: o) =
      (finish ((readByte (skipBlanks o)).map fun (b, rest) => (.cmd (.push b), rest))).map some :=
  rfl

/-- A `PUSH` line whose operand is read to its last character is that `PUSH`. -/
theorem parseLine_push_of_readByte {o : List Char} {b : Byte} (hblank : skipBlanks o = o)
    (h : readByte o = some (b, [])) :
    parseLine ('P' :: 'U' :: 'S' :: 'H' :: ' ' :: o) = some (some (.cmd (.push b))) := by
  rw [parseLine_push, hblank, h]
  rfl

theorem readByte_hex (b : Byte) :
    readByte ['0', 'x', hexChar (b.toNat / 16), hexChar (b.toNat % 16)] = some (b, []) := by
  have hb := b.isLt
  have hvalue : 16 * (b.toNat / 16) + b.toNat % 16 = b.toNat := Nat.div_add_mod _ _
  simp [readByte, hexDigit_hexChar (show b.toNat / 16 < 16 by omega),
    hexDigit_hexChar (show b.toNat % 16 < 16 by omega), hvalue]

theorem readByte_quoted {c : Char} (h : isPrintable c = true) :
    readByte ['\'', c, '\''] = some (asciiByte c, []) := by
  simp [readByte, h]

/-- Settles O46: a `PUSH` line by reading its operand back, the other commands by their names. -/
theorem assemblyReadsBack : Obligations.AssemblyReadsBack := by
  refine ⟨fun i => ?_, fun c hc => parseLine_push_of_readByte rfl (readByte_quoted hc)⟩
  cases i with
  | push b => exact parseLine_push_of_readByte rfl (readByte_hex b)
  | init | pad | split | next => rfl

end Sys2Proof.Machine
end

section
/-! Runs of command words, forward (70_reset_and_hazards R194): what each command and each stretch
of a message's run answers, and the whole run of 30_encoding R81, `INIT`, `PUSHS`, `PREP`. -/

namespace Sys2Proof.Machine

section
variable {s t : State}

/-! ### One accepted command -/

theorem exec_push_of_room (hphase : s.phase = .load) (hroom : s.cfg.bufCap ≠ some s.blen)
    (b : Byte) : exec (.push b) s = .next ((s.appendByte b).respond .ack) := by
  simp [exec, execPush, legalIn, bufferFull, hphase, hroom]

theorem exec_pad_of_fits (hbuf : BufferIs s.toArch) (hphase : s.phase = .load)
    (hlen : s.blen < 2 ^ 61) (hcap : exceedsCap s (s.blen + 9 + zeroFill s.blen) = false) :
    exec .pad s = .next (s.commitPad.respond .ack) := by
  simp [exec, execPad, legalIn, hphase, lengthOverflows_eq_false hlen, hcap,
    size_padCandidate_mod hbuf]

theorem exec_split_of_aligned (hphase : s.phase ≠ .fault) (haligned : s.blen % 64 = 0) :
    exec .split s = .next (s.openSequence.respond .ack) := by
  simp [exec, execSplit, legalIn, hphase, haligned]

theorem exec_next_of_end (hphase : s.phase = .part) (hend : s.bidx = s.bcnt) :
    exec .next s = .next (s.respond .endSeq) := by
  simp [exec, execNext, legalIn, hphase, hend]

/-- With the block inside the buffer, `NEXT` delivers its window of the byte sequence (R133). -/
theorem exec_next_of_block (hbuf : BufferIs s.toArch) (hphase : s.phase = .part)
    (hmore : s.bidx ≠ s.bcnt) (hin : 64 * s.bidx + 64 ≤ s.blen) :
    exec .next s =
      .next (s.advance.respond (.blk s.bidx s.lastBit (window s.buf.bytes s.bidx))) := by
  have hread : s.buf.readBytes (64 * s.bidx) 64 = some (window s.buf.bytes s.bidx) :=
    Memory.Filled.readBytes_eq hbuf hin
  simp [exec, execNext, legalIn, hphase, hmore, hread]

/-! ### A run goes on -/

theorem runFrom_encode {i : Instr} (h : exec i s = .next t) (k : Nat) (ws : List Word) :
    runFrom k (encode i :: ws) s = runFrom (k + 1) ws t :=
  runFrom_next ((step_offer (decode_encode i)).trans h) k

theorem runStmts_cons {st : Stmt} (h : runWords (stmtWords s.toArch st) s = .completed t)
    (sts : List Stmt) : runStmts (st :: sts) s = runStmts sts t := by
  rw [runStmts, h]

/-! ### Pushing a message -/

/-- The state after a message is pushed: its bytes appended, one `ACK` for each. -/
def State.appendMessage (s : State) (m : List Byte) : State :=
  { s with
    buf := s.buf.writeBytes s.blen m
    blen := s.blen + m.length
    trace := s.trace ++ List.replicate m.length .ack }

theorem appendMessage_nil (s : State) : s.appendMessage [] = s := by
  simp [State.appendMessage, Memory.writeBytes]

theorem appendMessage_cons (s : State) (b : Byte) (m : List Byte) :
    s.appendMessage (b :: m) = ((s.appendByte b).respond .ack).appendMessage m := by
  have hlen : s.blen + (b :: m).length = s.blen + 1 + m.length := by
    rw [List.length_cons]
    omega
  simp only [State.appendMessage, hlen]
  simp [State.appendByte, State.respond, Memory.writeBytes, List.replicate_succ]

theorem runFrom_pushes (m : List Byte) (hphase : s.phase = .load) (hcap : s.cfg.bufCap = none)
    (k : Nat) : runFrom k ((m.map .push).map encode) s = .completed (s.appendMessage m) := by
  induction m generalizing s k with
  | nil => rw [appendMessage_nil]; rfl
  | cons b m ih =>
    have hroom : s.cfg.bufCap ≠ some s.blen := by simp [hcap]
    rw [List.map_cons, List.map_cons, runFrom_encode (exec_push_of_room hphase hroom b),
      appendMessage_cons]
    exact ih (s := (s.appendByte b).respond .ack) hphase hcap _

theorem bufferIs_appendMessage (h : BufferIs s.toArch) (m : List Byte) :
    BufferIs (s.appendMessage m).toArch := Memory.Filled.writeBytes h m

theorem bytes_appendMessage (h : BufferIs s.toArch) (m : List Byte) :
    (s.appendMessage m).buf.bytes = s.buf.bytes ++ m := Memory.Filled.bytes_writeBytes h m

/-! ### Draining a block sequence -/

/-- The responses to `n` blocks of a sequence of `bcnt`, from block `i` on. -/
def blockResponses (bytes : List Byte) (bcnt i n : Nat) : List Response :=
  (List.range' i n).map fun j => .blk j (j + 1 == bcnt) (window bytes j)

theorem blockResponses_succ (bytes : List Byte) (bcnt i n : Nat) :
    blockResponses bytes bcnt i (n + 1) =
      .blk i (i + 1 == bcnt) (window bytes i) :: blockResponses bytes bcnt (i + 1) n := by
  simp [blockResponses, List.range'_succ]

/-- The state after the next `n` blocks of an open sequence and an `END` have been delivered. -/
def State.drain (s : State) (n : Nat) : State :=
  { s with
    bidx := s.bidx + n
    trace := s.trace ++ (blockResponses s.buf.bytes s.bcnt s.bidx n ++ [.endSeq]) }

theorem drain_zero (s : State) : s.drain 0 = s.respond .endSeq := rfl

theorem drain_succ (s : State) (n : Nat) :
    s.drain (n + 1) =
      (s.advance.respond (.blk s.bidx s.lastBit (window s.buf.bytes s.bidx))).drain n := by
  have hidx : s.bidx + (n + 1) = s.bidx + 1 + n := by omega
  simp only [State.drain, hidx, blockResponses_succ]
  simp [State.advance, State.respond, Arch.lastBit]

/-- `NEXT` to the end of a sequence of `n` blocks still to come, and once more (R81's `DRAIN`). -/
theorem runFrom_drain {n : Nat} (hbuf : BufferIs s.toArch) (hphase : s.phase = .part)
    (hin : 64 * s.bcnt ≤ s.blen) (hn : s.bcnt = s.bidx + n) (k : Nat) :
    runFrom k ((List.replicate (n + 1) .next).map encode) s = .completed (s.drain n) := by
  induction n generalizing s k with
  | zero => rw [drain_zero]; exact runFrom_encode (exec_next_of_end hphase hn.symm) k []
  | succ n ih =>
    rw [List.replicate_succ, List.map_cons, drain_succ,
      runFrom_encode (exec_next_of_block hbuf hphase (by omega) (by omega))]
    refine ih (s := s.advance.respond _) hbuf hphase hin ?_ _
    simp only [respond_bcnt, advance_bcnt, respond_bidx, advance_bidx]
    omega

/-! ### Padding and delivering -/

/-- The number of whole blocks of a padded message (42_split R132). -/
theorem padded_length_eq (n : Nat) : n + (padTail n).length = 64 * paddedBlocks n := by
  rw [length_padTail, zeroFill_eq_mod, paddedBlocks, blockBytes_eq]
  omega

/-- The state after `PREP`: padded, its sequence opened and delivered to the end. -/
def State.prepare (s : State) : State :=
  ((s.commitPad.respond .ack).openSequence.respond .ack).drain (paddedBlocks s.blen)

theorem size_padCandidate_eq_blocks (h : BufferIs s.toArch) :
    (padCandidate s).size = 64 * paddedBlocks s.blen := by
  rw [(filled_padCandidate h).size_eq, padded_length_eq]

theorem bytes_padCandidate (h : BufferIs s.toArch) :
    (padCandidate s).bytes = s.buf.bytes ++ padTail s.blen :=
  Memory.Filled.bytes_writeBytes h _

theorem runWords_prep (hbuf : BufferIs s.toArch) (hphase : s.phase = .load)
    (hlen : s.blen < 2 ^ 61) (hcap : s.cfg.bufCap = none) :
    runWords (stmtWords s.toArch .prep) s = .completed s.prepare := by
  have hsize := size_padCandidate_eq_blocks hbuf
  have hpad := exec_pad_of_fits hbuf hphase hlen (by simp [exceedsCap, hcap])
  have hsplit : exec .split (s.commitPad.respond .ack) =
      .next ((s.commitPad.respond .ack).openSequence.respond .ack) :=
    exec_split_of_aligned (by simp) (by simp [hsize])
  change runFrom 0 (encode .pad :: encode .split ::
    (drainCommands (paddedBlocks s.blen) 0).map encode) s = _
  rw [runFrom_encode hpad, runFrom_encode hsplit]
  exact runFrom_drain (s := (s.commitPad.respond .ack).openSequence.respond .ack)
    (bufferIs_commitPad hbuf) rfl (by simp [hsize]) (by simp [hsize]) _

theorem splitBlocks_of_length {p : List Byte} {n : Nat} (h : p.length = 64 * n) :
    splitBlocks p = .ok ((List.range n).map (window p)) := by
  simp [splitBlocks, h]

end

/-! ### What the responses carry -/

theorem cleanTrace_append (l₁ l₂ : List Response) :
    cleanTrace (l₁ ++ l₂) = (cleanTrace l₁ && cleanTrace l₂) := List.all_append

theorem traceBlocks_append (l₁ l₂ : List Response) :
    traceBlocks (l₁ ++ l₂) = traceBlocks l₁ ++ traceBlocks l₂ := List.filterMap_append

theorem cleanTrace_replicate_ack (n : Nat) : cleanTrace (List.replicate n .ack) = true := by
  simp [cleanTrace]

theorem traceBlocks_replicate_ack (n : Nat) : traceBlocks (List.replicate n .ack) = [] := by
  simp [traceBlocks]

theorem cleanTrace_blockResponses (bytes : List Byte) (bcnt i n : Nat) :
    cleanTrace (blockResponses bytes bcnt i n) = true := by
  simp [cleanTrace, blockResponses]

theorem traceBlocks_blockResponses (bytes : List Byte) (bcnt i n : Nat) :
    traceBlocks (blockResponses bytes bcnt i n) = (List.range' i n).map (window bytes) := by
  simp [traceBlocks, blockResponses, List.filterMap_map]

/-- What the trace of `PREP` adds: two `ACK`s, the blocks of the padded buffer, and `END`. -/
theorem prepare_trace {s : State} (h : BufferIs s.toArch) :
    s.prepare.trace = s.trace ++ ([.ack, .ack] ++
      (blockResponses (padCandidate s).bytes (paddedBlocks s.blen) 0 (paddedBlocks s.blen) ++
        [.endSeq])) := by
  simp [State.prepare, State.drain, size_padCandidate_eq_blocks h]

/-- The responses of `INIT`, `PUSHS` of `n` bytes and `PREP`, with the padded buffer's bytes. -/
def messageResponses (n : Nat) (bytes : List Byte) : List Response :=
  .ack :: List.replicate n .ack ++ ([.ack, .ack] ++
    (blockResponses bytes (paddedBlocks n) 0 (paddedBlocks n) ++ [.endSeq]))

theorem cleanTrace_messageResponses (n : Nat) (bytes : List Byte) :
    cleanTrace (messageResponses n bytes) = true := by
  rw [messageResponses, ← List.replicate_succ, cleanTrace_append, cleanTrace_append,
    cleanTrace_append, cleanTrace_replicate_ack, cleanTrace_blockResponses]
  rfl

theorem traceBlocks_messageResponses (n : Nat) (bytes : List Byte) :
    traceBlocks (messageResponses n bytes) = (List.range (paddedBlocks n)).map (window bytes) := by
  rw [messageResponses, ← List.replicate_succ, traceBlocks_append, traceBlocks_append,
    traceBlocks_append, traceBlocks_replicate_ack, traceBlocks_blockResponses, List.range_eq_range']
  simp [traceBlocks]

/-! ### `INIT`, `PUSHS`, `PREP` -/

/-- The state after `INIT` and `PUSHS` of a message. -/
def State.loadMessage (s : State) (m : List Byte) : State :=
  (s.clear.respond .ack).appendMessage m

section
variable (s : State) (m : List Byte)

theorem bufferIs_loadMessage : BufferIs (s.loadMessage m).toArch := bufferIs_appendMessage rfl m

theorem loadMessage_blen : (s.loadMessage m).blen = m.length := Nat.zero_add _

theorem bytes_loadMessage : (s.loadMessage m).buf.bytes = m := bytes_appendMessage rfl m

theorem runStmts_load (hcap : s.cfg.bufCap = none) (sts : List Stmt) :
    runStmts (.cmd .init :: .pushs m :: sts) s = runStmts sts (s.loadMessage m) := by
  have hinit : runWords (stmtWords s.toArch (.cmd .init)) s = .completed (s.clear.respond .ack) :=
    runFrom_encode (exec_init s) 0 []
  have hpushs : runWords (stmtWords (s.clear.respond .ack).toArch (.pushs m))
      (s.clear.respond .ack) = .completed (s.loadMessage m) :=
    runFrom_pushes (s := s.clear.respond .ack) m rfl hcap 0
  rw [runStmts_cons hinit, runStmts_cons hpushs]

end

/-- Settles O44: the blocks delivered are the windows of the padded buffer, whose bytes are `pad` of
the message. -/
theorem prepIsSplitBlocksOfPad : Obligations.PrepIsSplitBlocksOfPad := by
  intro s m hcap hlen
  have hbuf := bufferIs_loadMessage s m
  have hblen := loadMessage_blen s m
  have hprep := runWords_prep hbuf rfl (hblen.trans_lt hlen) hcap
  refine ⟨(s.loadMessage m).prepare, messageResponses m.length (m ++ padTail m.length),
    m ++ padTail m.length, _, ?_, ?_, cleanTrace_messageResponses _ _, ?_,
    splitBlocks_of_length (n := paddedBlocks m.length) ?_, traceBlocks_messageResponses _ _,
    rfl, rfl, ?_⟩
  · rw [runStmts_load s m hcap, runStmts_cons hprep, runStmts]
  · rw [prepare_trace hbuf, bytes_padCandidate hbuf, bytes_loadMessage, hblen]
    simp [messageResponses, State.loadMessage, State.appendMessage]
  · simp [pad, lengthOverflows_eq_false hlen]
  · rw [List.length_append, padded_length_eq]
  · simp [State.prepare, State.drain, size_padCandidate_eq_blocks hbuf]

end Sys2Proof.Machine
end

section
/-! What came before makes no difference (40_message_load R91): no command, step or run reads the
responses already given, so earlier ones can be put in front of a run or left out. -/

namespace Sys2Proof.Machine

/-- The same machine with more responses before those it carries. -/
def State.withHistory (l : List Response) (s : State) : State := { s with trace := l ++ s.trace }

/-- The same outcome of a machine with more responses before those it carries. -/
def resultWithHistory (l : List Response) : Result → Result
  | .next t => .next (t.withHistory l)
  | .fault f => .fault f
  | .refused r => .refused r

variable (l : List Response) (s : State)

theorem withHistory_respond (r : Response) :
    (s.withHistory l).respond r = (s.respond r).withHistory l := by
  simp [State.respond, State.withHistory]

theorem raise_withHistory (k : ErrKind) :
    raise (s.withHistory l) k = resultWithHistory l (raise s k) :=
  congrArg Host.Outcome.next
    (withHistory_respond l { s with err := some k, phase := .fault } (.err k))

/-- A command that completes with an update that leaves the trace alone, and a response. -/
theorem next_respond_withHistory (u : State) (r : Response) :
    (.next ((u.withHistory l).respond r) : Result) = resultWithHistory l (.next (u.respond r)) :=
  congrArg Host.Outcome.next (withHistory_respond l u r)

/-- No command reads the trace: each of its tests is on the elements and the parameter, and each
of its arms appends to the trace or stops. -/
theorem exec_withHistory (i : Instr) :
    exec i (s.withHistory l) = resultWithHistory l (exec i s) := by
  cases i with
  | init => exact next_respond_withHistory l s.clear .ack
  | push b =>
    simp only [exec, execPush, apply_ite (resultWithHistory l), ← next_respond_withHistory]
    rfl
  | pad =>
    simp only [exec, execPad, apply_ite (resultWithHistory l), ← next_respond_withHistory,
      ← raise_withHistory]
    rfl
  | split =>
    simp only [exec, execSplit, apply_ite (resultWithHistory l), ← next_respond_withHistory,
      ← raise_withHistory]
    rfl
  | next =>
    have hread : (s.withHistory l).buf.readBytes (blockAddr (s.withHistory l).toArch) blockBytes =
      s.buf.readBytes (blockAddr s.toArch) blockBytes := rfl
    simp only [exec, execNext, apply_ite (resultWithHistory l), ← next_respond_withHistory, hread]
    cases s.buf.readBytes (blockAddr s.toArch) blockBytes with
    | none => rfl
    | some d => simp only [← next_respond_withHistory]; rfl

theorem step_withHistory : step (s.withHistory l) = resultWithHistory l (step s) := by
  obtain ⟨a, cfg, input, trace⟩ := s
  cases input with
  | nil => rfl
  | cons e rest =>
    cases e with
    | reset => rfl
    | command w =>
      have hexec := exec_withHistory l ⟨a, cfg, rest, trace⟩
      simp only [step, fetch, State.withHistory] at hexec ⊢
      cases decode w with
      | error e => rfl
      | ok i => exact hexec i

theorem run_withHistory (k : Nat) :
    core.run k (s.withHistory l) = resultWithHistory l (core.run k s) := by
  induction k generalizing s with
  | zero => rfl
  | succ k ih =>
    have hstep := step_withHistory l s
    cases h : step s with
    | next t => rw [h] at hstep; rw [run_next hstep, run_next h, ih]
    | fault f => rw [h] at hstep; rw [run_fault hstep, run_fault h]; rfl
    | refused r => rw [h] at hstep; rw [run_refused hstep, run_refused h]; rfl

/-- One outcome behind two histories says the same from each of them on. -/
theorem sameFrom_withHistory (l₁ l₂ : List Response) (o : Result) :
    SameFrom l₁ l₂ (resultWithHistory l₁ o) (resultWithHistory l₂ o) := by
  cases o with
  | next t => exact ⟨rfl, t.trace, rfl, rfl⟩
  | fault f => rfl
  | refused r => rfl

/-- Machines that agree in the elements, the parameter and the stream run alike, each behind its own
trace. -/
theorem run_eq_withHistory {s t : State} (helems : s.toArch = t.toArch) (hcfg : s.cfg = t.cfg)
    (hinput : s.input = t.input) (k : Nat) :
    core.run k t = resultWithHistory t.trace (core.run k { s with trace := [] }) := by
  have ht : ({ s with trace := [] } : State).withHistory t.trace = t := by
    simp [State.withHistory, helems, hcfg, hinput]
  rw [← run_withHistory, ht]

/-- So their runs say the same of everything but what came before. -/
theorem sameFrom_run {s t : State} (helems : s.toArch = t.toArch) (hcfg : s.cfg = t.cfg)
    (hinput : s.input = t.input) (k : Nat) :
    SameFrom s.trace t.trace (core.run k s) (core.run k t) := by
  rw [run_eq_withHistory rfl rfl rfl k (s := s) (t := s), run_eq_withHistory helems hcfg hinput k]
  exact sameFrom_withHistory _ _ _

end Sys2Proof.Machine
end

section
/-! The message load commands settled (40_message_load R90 to R93): what `INIT` leaves, that nothing
before it shows after it, and what `PUSH` does or why it is refused. -/

namespace Sys2Proof.Machine

/-- Settles O9: `INIT` leaves the reset elements, so after it the two states differ in their traces
alone. -/
theorem initErasesHistory : Obligations.InitErasesHistory := by
  intro s₁ s₂ t₁ t₂ hcfg hinput h₁ h₂ k
  cases h₁
  cases h₂
  exact sameFrom_run (s := s₁.clear.respond .ack) (t := s₂.clear.respond .ack) rfl hcfg hinput k

theorem exec_push_of_full {s : State} (hphase : s.phase = .load)
    (hfull : s.cfg.bufCap = some s.blen) (b : Byte) :
    exec (.push b) s = .refused .capacity := by
  simp [exec, execPush, legalIn, bufferFull, hphase, hfull]

/-- Settles O10: the completing arm appends one cell at `BLEN`, which the buffer's laws read back;
the other two arms are the refusals. -/
theorem pushAppendsOneByte : Obligations.PushAppendsOneByte := by
  refine fun b s => ⟨fun hphase hroom => ⟨_, exec_push_of_room hphase hroom b, ?_⟩,
    fun hphase => (exec_refused_wrongPhase_iff _ _).2 ?_,
    fun hphase hfull => exec_push_of_full hphase hfull b⟩
  · exact ⟨Memory.readByte_writeByte_same _ _ _,
      fun a ha => Memory.readByte_writeByte_other _ b ha,
      fun hbuf => ⟨Memory.Filled.writeByte hbuf b, Memory.Filled.bytes_writeByte hbuf b⟩,
      rfl, rfl, rfl, rfl, rfl, hphase, rfl, rfl, rfl, rfl, rfl⟩
  · simp [legalIn, hphase]

/-- Settles O8: the reset record is these nine values, and the trace gets the response. -/
theorem initClearsEverything : Obligations.InitClearsEverything := exec_init

end Sys2Proof.Machine
end

section
/-! The padding settled (41_pad R100 to R114): the length encoder and the zero fill, `pad` as a
function, and the arms of `PAD`. -/

namespace Sys2Proof.Machine

/-! ### The length field and the zero fill -/

/-- Read from the front, `k` bytes of the field are the bits from `64 - 8k` up. -/
theorem beValue_take_be64 (v : U64) {k : Nat} (hk : k ≤ 8) :
    beValue ((be64 v).take k) = v.toNat / 2 ^ (64 - 8 * k) := by
  induction k with
  | zero => exact (Nat.div_eq_of_lt v.isLt).symm
  | succ k ih =>
    have hpow : 2 ^ (64 - 8 * k) = 2 ^ (56 - 8 * k) * 2 ^ 8 := by
      rw [← pow_add, show 56 - 8 * k + 8 = 64 - 8 * k by omega]
    rw [List.take_add_one, getElem?_be64 v (by omega), Option.toList_some,
      beValue_append_singleton, ih (by omega), BitVec.extractLsb'_toNat,
      Nat.shiftRight_eq_div_pow, hpow, ← Nat.div_div_eq_div_mul,
      show 64 - 8 * (k + 1) = 56 - 8 * k by omega]
    exact Nat.div_add_mod' _ 256

theorem beValue_be64 (v : U64) : beValue (be64 v) = v.toNat := by
  simpa [List.take_of_length_le] using beValue_take_be64 v le_rfl

/-- Below the bound of R102 the `u64` of R101 is the exact bit length. -/
theorem toNat_bitLength {n : Nat} (h : n < 2 ^ 61) : (bitLength n).toNat = 8 * n :=
  Nat.mod_eq_of_lt (by rw [byteBits_eq]; omega)

/-- Settles O17: the bytes by `getElem?_be64`, the value by reading them from the front. -/
theorem lengthEncoderIsBigEndian : Obligations.LengthEncoderIsBigEndian :=
  ⟨fun v => ⟨length_be64 v, fun _ hk => getElem?_be64 v hk, beValue_be64 v⟩, by decide⟩

/-- Settles O15: the loop condition says that `n + 9 + k` is a multiple of 64. -/
theorem zeroFillIsTheLoopsCount : Obligations.ZeroFillIsTheLoopsCount := by
  intro n
  have hfill := zeroFill_eq_mod n
  refine ⟨rfl, ?_, fun k (hk : (8 * (n + 1 + k) + 64) % 512 = 0) => ?_⟩
  · change (8 * (n + 1 + zeroFill n) + 64) % 512 = 0
    omega
  · omega

/-- Settles O16: the fill count as a remainder of 119 settles each row of the table. -/
theorem spillTable : Obligations.SpillTable := by
  intro n
  rw [length_padTail, zeroFill_eq_mod]
  refine ⟨fun hfits => ⟨?_, ?_, ?_⟩, fun hspills => ⟨?_, ?_, ?_⟩, ?_⟩ <;> omega

/-! ### `pad` as a function -/

section
variable {m p : List Byte}

theorem pad_of_lt (h : m.length < 2 ^ 61) : pad m = .ok (m ++ padTail m.length) := by
  simp [pad, lengthOverflows_eq_false h]

theorem pad_of_le (h : 2 ^ 61 ≤ m.length) : pad m = .error .overflow := by
  simp [pad, lengthOverflows_eq_true h]

theorem pad_ok (h : pad m = .ok p) : m.length < 2 ^ 61 ∧ p = m ++ padTail m.length := by
  rcases lt_or_ge m.length (2 ^ 61) with hlen | hlen
  · rw [pad_of_lt hlen] at h
    cases h
    exact ⟨hlen, rfl⟩
  · rw [pad_of_le hlen] at h
    cases h

theorem append_padTail (m : List Byte) (n : Nat) :
    m ++ padTail n = m ++ [0x80] ++ List.replicate (zeroFill n) 0x00 ++ be64 (bitLength n) := by
  simp [padTail_eq, zeros]

theorem pad_length (h : pad m = .ok p) : p.length = 64 * paddedBlocks m.length := by
  obtain ⟨-, rfl⟩ := pad_ok h
  rw [List.length_append, padded_length_eq]

theorem pad_take (h : pad m = .ok p) : p.take m.length = m := by
  obtain ⟨-, rfl⟩ := pad_ok h
  exact List.take_left

theorem pad_getElem? (h : pad m = .ok p) (k : Nat) : p[m.length + k]? = (padTail m.length)[k]? := by
  obtain ⟨-, rfl⟩ := pad_ok h
  rw [List.getElem?_append_right (by omega), Nat.add_sub_cancel_left]

theorem pad_drop_length (h : pad m = .ok p) :
    p.drop (p.length - 8) = be64 (bitLength m.length) := by
  obtain ⟨-, rfl⟩ := pad_ok h
  rw [append_padTail]
  exact List.drop_left' (by simp; omega)

/-- The length of the message is read back from the last 8 bytes (R114). -/
theorem pad_beValue (h : pad m = .ok p) : beValue (p.drop (p.length - 8)) = 8 * m.length := by
  rw [pad_drop_length h, beValue_be64, toNat_bitLength (pad_ok h).1]

theorem pad_fill (h : pad m = .ok p) {a : Nat} (h₁ : m.length + 1 ≤ a) (h₂ : a < p.length - 8) :
    p[a]? = some 0x00 := by
  have hlen := padded_length_eq m.length
  rw [length_padTail] at hlen
  rw [pad_length h] at h₂
  obtain ⟨k, rfl⟩ := Nat.exists_eq_add_of_le (show m.length ≤ a by omega)
  rw [pad_getElem? h, getElem?_padTail_fill (by omega) (by omega)]

/-- The padded result gives back the length of the message, and so the message itself. -/
theorem pad_injective {m₁ m₂ : List Byte} (h₁ : pad m₁ = .ok p) (h₂ : pad m₂ = .ok p) :
    m₁ = m₂ := by
  have hlen : m₁.length = m₂.length := by
    have := (pad_beValue h₁).symm.trans (pad_beValue h₂)
    omega
  rw [← pad_take h₁, hlen, pad_take h₂]

end

/-- Settles O18: each property is one of the lemmas about what `pad` answers; minimality because
the number of blocks is the least that holds `n + 9` bytes. -/
theorem padProperties : Obligations.PadProperties := by
  refine ⟨fun m p h => ⟨?_, pad_beValue h, ⟨pad_length h, fun l hl hle => ?_⟩,
    pad_getElem? h 0, pad_take h, fun a h₁ h₂ => pad_fill h h₁ h₂⟩,
    fun _ _ _ h₁ h₂ => pad_injective h₁ h₂⟩
  · rw [pad_length h]
    exact Nat.mul_mod_right _ _
  · rw [pad_length h, paddedBlocks, blockBytes_eq]
    omega

/-! ### The arms of `PAD` -/

theorem exceedsCap_iff (s : State) (n : Nat) :
    exceedsCap s n = true ↔ ∃ cap, s.cfg.bufCap = some cap ∧ cap < n := by
  cases hcap : s.cfg.bufCap <;> simp [exceedsCap, hcap]

theorem exceedsCap_eq_false_iff (s : State) (n : Nat) :
    exceedsCap s n = false ↔ ∀ cap, s.cfg.bufCap = some cap → n ≤ cap := by
  rw [← Bool.not_eq_true, exceedsCap_iff]
  push Not
  rfl

section
variable {s t : State}

theorem exec_pad_of_overflow (hphase : s.phase = .load) (hlen : 2 ^ 61 ≤ s.blen) :
    exec .pad s = .next (s.enterFault .overflow) := by
  simp [exec, execPad, legalIn, hphase, lengthOverflows_eq_true hlen, raise]

theorem exec_pad_of_exceeds (hphase : s.phase = .load) (hlen : s.blen < 2 ^ 61)
    (hcap : exceedsCap s (s.blen + 9 + zeroFill s.blen) = true) :
    exec .pad s = .refused .capacity := by
  simp [exec, execPad, legalIn, hphase, lengthOverflows_eq_false hlen, hcap]

/-- A `PAD` that answers `ACK` committed, and the message was short enough. -/
theorem exec_pad_ack (h : exec .pad s = .next t) (hack : t.trace = s.trace ++ [.ack]) :
    s.blen < 2 ^ 61 ∧ t = s.commitPad.respond .ack := by
  obtain ⟨-, ⟨-, rfl⟩ | ⟨hlen, -, ⟨-, rfl⟩ | ⟨-, rfl⟩⟩⟩ := execPad_next h
  · simp at hack
  · simp at hack
  · exact ⟨hlen, rfl⟩

/-- What `PAD` commits is `pad` of the message in the buffer (R109). -/
theorem pad_bytes_eq_commitPad (hbuf : BufferIs s.toArch) (hlen : s.blen < 2 ^ 61) :
    pad s.buf.bytes = .ok s.commitPad.buf.bytes := by
  have hbytes : s.buf.bytes.length = s.blen := Memory.Filled.bytes_length hbuf
  rw [pad_of_lt (hbytes ▸ hlen), hbytes, commitPad_buf, bytes_padCandidate hbuf]

end

/-- Settles O11: the phase test, then the length, then the capacity, decides the arm; what the last
one commits is read off the padded buffer. -/
theorem padReplacesMessageByPadded : Obligations.PadReplacesMessageByPadded := by
  refine fun s hbuf => ⟨fun hphase => (exec_refused_wrongPhase_iff _ _).2 ?_,
    fun hphase hlen => exec_pad_of_overflow hphase hlen,
    fun hphase hlen hcap => exec_pad_of_exceeds hphase hlen ((exceedsCap_iff _ _).2 hcap),
    fun hphase hlen hcap =>
      ⟨_, exec_pad_of_fits hbuf hphase hlen ((exceedsCap_eq_false_iff _ _).2 hcap), ?_⟩⟩
  · simp [legalIn, hphase]
  · refine ⟨(bytes_padCandidate hbuf).trans (append_padTail _ _), bufferIs_commitPad hbuf,
      fun a ha => readByte_padCandidate_outside ?_, size_padCandidate hbuf,
      rfl, rfl, rfl, rfl, rfl, rfl, rfl, rfl, rfl, rfl⟩
    rw [length_padTail, Nat.add_comm (zeroFill _), ← Nat.add_assoc]
    exact ha

/-- Settles O12: `pad` and the command test the same bound, and what the command commits is what
`pad` answers. -/
theorem padCommandRealisesPadFunction : Obligations.PadCommandRealisesPadFunction := by
  refine ⟨fun m hlen => (pad_of_lt hlen).trans (congrArg _ (append_padTail _ _)),
    fun m p h => ?_, fun s t hbuf h hack => ?_, fun s hbuf hphase hcap => ?_⟩
  · rw [pad_length h]
    exact Nat.mul_mod_right _ _
  · obtain ⟨hlen, rfl⟩ := exec_pad_ack h hack
    exact pad_bytes_eq_commitPad hbuf hlen
  · rcases lt_or_ge s.blen (2 ^ 61) with hlen | hlen
    · rw [pad_bytes_eq_commitPad hbuf hlen]
      exact ⟨_, exec_pad_of_fits hbuf hphase hlen (by simp [exceedsCap, hcap]), rfl, rfl⟩
    · rw [pad_of_le ((Memory.Filled.bytes_length hbuf).symm ▸ hlen)]
      exact exec_pad_of_overflow hphase hlen

/-- Settles O13: the bound on bytes and the bound on bits are one; the overflow arm is the one above
it, and the arm that answers `ACK` lies below it. -/
theorem overflowExactlyWhenBitLengthTooLong : Obligations.OverflowExactlyWhenBitLengthTooLong := by
  refine ⟨fun n => by omega, fun s t h => ?_, fun s hphase hlen =>
    ⟨_, exec_pad_of_overflow hphase hlen, rfl, rfl, rfl, rfl, rfl⟩, fun s t h hack => ?_⟩
  · obtain ⟨-, ⟨hlen, rfl⟩ | ⟨hlen, -, ⟨-, rfl⟩ | ⟨-, rfl⟩⟩⟩ := execPad_next h
    · exact iff_of_true rfl (by omega)
    · exact iff_of_false (by simp) (by omega)
    · exact iff_of_false (by simp) (by omega)
  · obtain ⟨hlen, rfl⟩ := exec_pad_ack h hack
    exact toNat_bitLength hlen

/-- Settles O14: only `PAD` can answer it, and its candidate is whole blocks wherever the buffer
holds `BLEN` bytes. -/
theorem paddingInvariantErrorIsDead : Obligations.PaddingInvariantErrorIsDead := by
  refine ⟨fun n => by omega, fun i s t hbuf h => ?_⟩
  cases i with
  | init => cases h; simp
  | push b => obtain ⟨-, -, rfl⟩ := execPush_next h; simp
  | pad =>
    obtain ⟨-, ⟨-, rfl⟩ | ⟨-, -, ⟨hodd, rfl⟩ | ⟨-, rfl⟩⟩⟩ := execPad_next h
    · simp
    · exact absurd (size_padCandidate_mod hbuf) hodd
    · simp
  | split => obtain ⟨-, ⟨-, rfl⟩ | ⟨-, rfl⟩⟩ := execSplit_next h <;> simp
  | next => obtain ⟨-, ⟨-, rfl⟩ | ⟨-, d, -, rfl⟩⟩ := execNext_next h <;> simp

end Sys2Proof.Machine
end

section
/-! The partition settled (42_split R130 to R140): `splitBlocks` as a function of a byte sequence,
the arms of `SPLIT` and `NEXT`, and the run of the two that realises it. -/

namespace Sys2Proof.Machine

/-! ### `splitBlocks` as a function -/

section
variable {s : List Byte}

theorem getElem?_window (s : List Byte) (i : Nat) {j : Nat} (hj : j < 64) :
    (window s i)[j]? = s[64 * i + j]? := by
  rw [window, List.getElem?_take_of_lt hj, List.getElem?_drop]

theorem length_window {i : Nat} (h : 64 * i + 64 ≤ s.length) : (window s i).length = 64 := by
  rw [window, List.length_take, List.length_drop, blockBytes_eq]
  omega

/-- The windows stand side by side, so the first `n` of them are the first `64 * n` bytes. -/
theorem flatten_windows (s : List Byte) (n : Nat) :
    ((List.range n).map (window s)).flatten = s.take (64 * n) := by
  induction n with
  | zero => rfl
  | succ n ih =>
    rw [List.range_succ, List.map_append, List.flatten_append, ih, Nat.mul_succ, List.take_add]
    simp [window]

theorem getElem?_windows (s : List Byte) {i n : Nat} (hi : i < n) :
    ((List.range n).map (window s))[i]? = some (window s i) := by
  simp [hi]

theorem splitBlocks_of_aligned (h : s.length % 64 = 0) :
    splitBlocks s = .ok ((List.range (s.length / 64)).map (window s)) := if_pos h

theorem splitBlocks_of_misaligned (h : s.length % 64 ≠ 0) : splitBlocks s = .error .align :=
  if_neg h

theorem splitBlocks_ok {bs : List (List Byte)} (h : splitBlocks s = .ok bs) :
    ∃ n, s.length = 64 * n ∧ bs = (List.range n).map (window s) := by
  by_cases haligned : s.length % 64 = 0
  · rw [splitBlocks_of_aligned haligned] at h
    cases h
    exact ⟨s.length / 64, by omega, rfl⟩
  · rw [splitBlocks_of_misaligned haligned] at h
    cases h

end

section
variable {m p : List Byte}

/-- The last block of a padded message ends with the length field (R140). -/
theorem drop_window_of_pad (h : pad m = .ok p) :
    (window p ((m.length + 8) / 64)).drop 56 = be64 (bitLength m.length) := by
  have hlen : p.length = 64 * ((m.length + 8) / 64 + 1) := pad_length h
  have haddr : blockBytes * ((m.length + 8) / 64) + 56 = p.length - 8 := by
    rw [hlen, blockBytes_eq]
    omega
  rw [window, List.drop_take, List.drop_drop, haddr, pad_drop_length h]
  exact List.take_of_length_le (length_be64 _).le

/-- The marker of a padded message stands right after the message's last byte (R140). -/
theorem getElem?_window_of_pad (h : pad m = .ok p) :
    (window p (m.length / 64))[m.length % 64]? = some 0x80 := by
  rw [getElem?_window _ _ (Nat.mod_lt _ (by omega)), Nat.div_add_mod]
  exact pad_getElem? h 0

end

/-- Settles O22: the blocks are windows that stand side by side; those of a padded message are read
off `pad`. -/
theorem splitBlocksProperties : Obligations.SplitBlocksProperties := by
  refine ⟨fun s bs h => ?_, fun m hlen => ?_⟩
  · obtain ⟨n, hn, rfl⟩ := splitBlocks_ok h
    refine ⟨?_, fun b hb => ?_, ?_, fun i j hi hj => ?_⟩
    · rw [flatten_windows, ← hn, List.take_length]
    · obtain ⟨i, hi, rfl⟩ := List.mem_map.1 hb
      rw [List.mem_range] at hi
      exact length_window (by omega)
    · simp [hn]
    · rw [List.length_map, List.length_range] at hi
      rw [getElem?_windows s hi, Option.bind_some, getElem?_window s i hj]
  · have hpad := pad_of_lt hlen
    have hmarker : m.length / 64 < paddedBlocks m.length := by
      rw [paddedBlocks, blockBytes_eq]
      omega
    refine ⟨_, _, hpad, splitBlocks_of_length (pad_length hpad), by simp [paddedBlocks],
      ⟨_, ?_, drop_window_of_pad hpad⟩, _, getElem?_windows _ hmarker, getElem?_window_of_pad hpad⟩
    simp [paddedBlocks, List.range_succ]

/-! ### The arms of `SPLIT` and `NEXT` -/

section
variable {s : State}

theorem exec_split_of_misaligned (hphase : s.phase ≠ .fault) (hodd : s.blen % 64 ≠ 0) :
    exec .split s = .next (s.enterFault .align) := by
  simp [exec, execSplit, legalIn, hphase, hodd, raise]

theorem exec_next_of_phase (hphase : s.phase ≠ .part) : exec .next s = .refused .wrongPhase :=
  (exec_refused_wrongPhase_iff _ _).2 (by simp [legalIn, hphase])

/-- The read of `NEXT` inside the buffer is the window of its byte sequence (R133). -/
theorem readBytes_block (hbuf : BufferIs s.toArch) {i : Nat} (hin : 64 * i + 64 ≤ s.blen) :
    s.buf.readBytes (64 * i) 64 = some (window s.buf.bytes i) :=
  Memory.Filled.readBytes_eq hbuf hin

/-- In an allowed state every block of the open sequence lies inside the buffer (R56, R137). -/
theorem Inv.block_inside (h : Inv s) (hphase : s.phase = .part) {i : Nat} (hi : i < s.bcnt) :
    64 * i + 64 ≤ s.blen := by
  obtain ⟨haligned, hcount, -⟩ := h.part hphase
  omega

/-- In an allowed state `NEXT` in `PART` either ends the sequence or delivers a window. -/
theorem exec_next_of_inv (h : Inv s) (hphase : s.phase = .part) :
    (s.bidx = s.bcnt ∧ exec .next s = .next (s.respond .endSeq)) ∨
    (s.bidx < s.bcnt ∧ exec .next s =
      .next (s.advance.respond (.blk s.bidx s.lastBit (window s.buf.bytes s.bidx)))) := by
  obtain ⟨-, -, hle⟩ := h.part hphase
  rcases hle.eq_or_lt with hend | hmore
  · exact .inl ⟨hend, exec_next_of_end hphase hend⟩
  · exact .inr ⟨hmore,
      exec_next_of_block h.buffer hphase hmore.ne (h.block_inside hphase hmore)⟩

end

/-- Settles O19: the phase test and the alignment test decide the arm. -/
theorem splitChecksAlignmentAndOpens : Obligations.SplitChecksAlignmentAndOpens :=
  fun s => ⟨fun hphase => (exec_refused_wrongPhase_iff _ _).2 (by simp [legalIn, hphase]),
    exec_split_of_misaligned, exec_split_of_aligned⟩

/-- Settles O20: the block is the window that the read answers, byte by byte; an allowed state in
`PART` reaches one of the two completing arms. -/
theorem nextDeliversTheBlockOrEnd : Obligations.NextDeliversTheBlockOrEnd := by
  refine fun s => ⟨exec_next_of_phase, exec_next_of_end, fun hphase hmore hbuf hin => ?_,
    fun hinv f => ?_⟩
  · have hread := readBytes_block hbuf hin
    exact ⟨_, Memory.readBytes_length hread, fun j hj => Memory.getElem?_of_readBytes hread hj,
      exec_next_of_block hbuf hphase hmore hin⟩
  · by_cases hphase : s.phase = .part
    · rcases exec_next_of_inv hinv hphase with ⟨-, h⟩ | ⟨-, h⟩ <;> simp [h]
    · simp [exec_next_of_phase hphase]

/-- Settles O21: at the end of the sequence nothing moves; before it `BIDX` goes one further and the
block is a whole window of the buffer. -/
theorem nextNeverLeavesTheBuffer : Obligations.NextNeverLeavesTheBuffer := by
  intro s hinv hphase
  rcases exec_next_of_inv hinv hphase with ⟨hend, h⟩ | ⟨hmore, h⟩
  · exact ⟨_, _, h, rfl, rfl, hend.le, rfl, rfl⟩
  · have hread := readBytes_block hinv.buffer (hinv.block_inside hphase hmore)
    exact ⟨_, _, h, rfl, beq_iff_eq.2 (Memory.readBytes_length hread), hmore, rfl, rfl⟩

/-- Settles O24: the buffer is still whole blocks in `PART`, so `SPLIT` opens the sequence again
with the same count. -/
theorem splitRestartsTheSequence : Obligations.SplitRestartsTheSequence := by
  intro s hinv hphase
  obtain ⟨haligned, hcount, -⟩ := hinv.part hphase
  refine ⟨_, exec_split_of_aligned (by simp [hphase]) haligned, rfl, hcount.symm, rfl, rfl, rfl,
    fun hpos => ?_⟩
  have hin := hinv.block_inside hphase hpos
  have hnext := exec_next_of_block (s := s.openSequence.respond .ack) hinv.buffer rfl
    (show 0 ≠ s.blen / 64 by omega) hin
  refine ⟨_, _, hnext, rfl, readBytes_block hinv.buffer hin, ?_⟩
  rw [hcount]
  rfl

/-- Settles O25: `SPLIT` writes none of the buffer's elements; in `PART` the phase test refuses
`PUSH` and `PAD`, and `SPLIT` and `NEXT` leave `PART` or `FAULT`. -/
theorem partitionSealsTheBuffer : Obligations.PartitionSealsTheBuffer := by
  refine ⟨fun s t h => ?_, fun s t h hack => ?_, fun s b hphase => ?_,
    fun i s t hphase hi h => ?_, fun s => ⟨_, exec_init s, rfl, rfl, rfl⟩⟩
  · obtain ⟨-, ⟨-, rfl⟩ | ⟨-, rfl⟩⟩ := execSplit_next h <;> simp
  · obtain ⟨-, ⟨-, rfl⟩ | ⟨-, rfl⟩⟩ := execSplit_next h
    · simp at hack
    · rfl
  · simp [exec_refused_wrongPhase_iff, legalIn, hphase]
  · cases i with
    | init => exact absurd rfl hi
    | push b => simp [(execPush_next h).1] at hphase
    | pad => simp [(execPad_next h).1] at hphase
    | split => obtain ⟨-, ⟨-, rfl⟩ | ⟨-, rfl⟩⟩ := execSplit_next h <;> simp
    | next => obtain ⟨-, ⟨-, rfl⟩ | ⟨-, d, -, rfl⟩⟩ := execNext_next h <;> simp [hphase]

/-! ### The run that realises `splitBlocks` -/

/-- The responses to the whole of a sequence carry its blocks in order, each with its index. -/
theorem blockResponses_eq_mapIdx (bytes : List Byte) (n : Nat) :
    blockResponses bytes n 0 n =
      ((List.range n).map (window bytes)).mapIdx fun i d => .blk i (i + 1 == n) d := by
  refine List.ext_getElem (by simp [blockResponses]) fun i _ _ => ?_
  simp [blockResponses]

section
variable {s : State}

/-- `SPLIT`, and `NEXT` until `END`, on a buffer of `n` whole blocks. -/
theorem runWords_split_drain {n : Nat} (hbuf : BufferIs s.toArch) (hphase : s.phase ≠ .fault)
    (hn : s.blen = 64 * n) :
    runWords (encode .split :: List.replicate (n + 1) (encode .next)) s =
      .completed ((s.openSequence.respond .ack).drain n) := by
  rw [runWords, runFrom_encode (exec_split_of_aligned hphase (by omega)), ← List.map_replicate]
  exact runFrom_drain (s := s.openSequence.respond .ack) hbuf rfl (by simp [hn]) (by simp [hn]) _

theorem split_drain_trace {n : Nat} (hn : s.blen = 64 * n) :
    ((s.openSequence.respond .ack).drain n).trace =
      s.trace ++ ([.ack] ++ (blockResponses s.buf.bytes n 0 n ++ [.endSeq])) := by
  simp [State.drain, hn]

/-- After `ERR(ALIGN)` the block is in `FAULT`, where `NEXT` is refused (R139, R157). -/
theorem runWords_split_misaligned (hphase : s.phase ≠ .fault) (hodd : s.blen % 64 ≠ 0)
    (n : Nat) :
    runWords (encode .split :: List.replicate (n + 1) (encode .next)) s =
      .refused 1 .wrongPhase (s.enterFault .align) := by
  rw [runWords, runFrom_encode (exec_split_of_misaligned hphase hodd), List.replicate_succ]
  exact runFrom_refused ((step_offer (decode_encode .next)).trans (exec_next_of_phase (by simp))) _

end

/-- Settles O23: `SPLIT` tests the length that `splitBlocks` tests; then the drained sequence
carries the windows, or the fault state refuses `NEXT`. -/
theorem splitAndNextRealiseSplitBlocks : Obligations.SplitAndNextRealiseSplitBlocks := by
  refine ⟨fun s => ⟨splitBlocks_of_aligned, splitBlocks_of_misaligned⟩, fun s hbuf hphase => ?_⟩
  have hlen : s.buf.bytes.length = s.blen := Memory.Filled.bytes_length hbuf
  by_cases haligned : s.blen % 64 = 0
  · obtain ⟨n, hn⟩ := Nat.dvd_of_mod_eq_zero haligned
    rw [splitBlocks_of_length (hlen.trans hn)]
    refine ⟨(s.openSequence.respond .ack).drain n, ?_, ?_, ?_⟩
    · simpa using runWords_split_drain hbuf hphase hn
    · simp [split_drain_trace hn, blockResponses_eq_mapIdx]
    · rw [split_drain_trace hn, traceBlocks_append, traceBlocks_append, traceBlocks_append,
        traceBlocks_blockResponses, List.range_eq_range']
      simp [traceBlocks]
  · rw [splitBlocks_of_misaligned (hlen.symm ▸ haligned)]
    exact ⟨rfl, _, runFrom_encode (exec_split_of_misaligned hphase haligned) 0 [], rfl,
      runWords_split_misaligned hphase haligned⟩

end Sys2Proof.Machine
end

section
/-! Faults, refusals and the steps that run no command settled (60_exceptions R150 to R168,
70_reset_and_hazards R180): which command answers `ERR` and what it leaves, when a word is refused
and why, and that nothing beside the elements and `BUF_CAP` decides either. -/

namespace Sys2Proof.Machine

/-! ### Taking a fault -/

section
variable {i : Instr} {s t : State} {k : ErrKind}

/-- Only `PAD` and `SPLIT` answer `ERR`, each under the test of its fault, and what they leave is
the fault state. -/
theorem exec_answers_err (h : exec i s = .next t) (htrace : t.trace = s.trace ++ [.err k]) :
    t = s.enterFault k ∧
      ((i = .pad ∧ k = .overflow ∧ s.phase = .load ∧ 2 ^ 61 ≤ s.blen) ∨
       (i = .pad ∧ k = .padinv ∧ s.phase = .load ∧ (padCandidate s).size % 64 ≠ 0) ∨
       (i = .split ∧ k = .align ∧ s.phase ≠ .fault ∧ s.blen % 64 ≠ 0)) := by
  cases i with
  | init => cases h; simp at htrace
  | push b => obtain ⟨-, -, rfl⟩ := execPush_next h; simp at htrace
  | pad =>
    obtain ⟨hphase, ⟨hlen, rfl⟩ | ⟨-, -, ⟨hodd, rfl⟩ | ⟨-, rfl⟩⟩⟩ := execPad_next h
    · obtain rfl : ErrKind.overflow = k := by simpa using htrace
      exact ⟨rfl, .inl ⟨rfl, rfl, hphase, hlen⟩⟩
    · obtain rfl : ErrKind.padinv = k := by simpa using htrace
      exact ⟨rfl, .inr (.inl ⟨rfl, rfl, hphase, hodd⟩)⟩
    · simp at htrace
  | split =>
    obtain ⟨hphase, ⟨hodd, rfl⟩ | ⟨-, rfl⟩⟩ := execSplit_next h
    · obtain rfl : ErrKind.align = k := by simpa using htrace
      exact ⟨rfl, .inr (.inr ⟨rfl, rfl, hphase, hodd⟩)⟩
    · simp at htrace
  | next => obtain ⟨-, ⟨-, rfl⟩ | ⟨-, d, -, rfl⟩⟩ := execNext_next h <;> simp at htrace

end

/-- Settles O27: an `ERR` answer leaves the fault state, which is this record. -/
theorem faultsArePrecise : Obligations.FaultsArePrecise := fun _ s _ k h htrace =>
  (exec_answers_err h htrace).1.trans (enterFault_eq s k)

/-- Settles O28: of the three tests, `PADINV`'s fails wherever the buffer holds `BLEN` bytes, and
`ALIGN`'s holds in `LOAD` only. -/
theorem exactlyTheThreeFaults : Obligations.ExactlyTheThreeFaults := by
  refine ⟨⟨rfl, rfl, rfl, rfl⟩, fun i s k hinv => ⟨fun ⟨t, h, htrace⟩ => ?_, ?_⟩⟩
  · obtain ⟨-, hover | ⟨-, -, -, hodd⟩ | ⟨hi, hk, hphase, hodd⟩⟩ := exec_answers_err h htrace
    · exact .inl hover
    · exact absurd (size_padCandidate_mod hinv.buffer) hodd
    · exact .inr ⟨hi, hk, hinv.load_of_not_aligned hphase hodd, hodd⟩
  · rintro (⟨rfl, rfl, hphase, hlen⟩ | ⟨rfl, rfl, hphase, hodd⟩)
    · exact ⟨_, exec_pad_of_overflow hphase hlen, rfl⟩
    · exact ⟨_, exec_split_of_misaligned (by simp [hphase]) hodd, rfl⟩

/-- Settles O29: the phase table has `INIT` alone in its `FAULT` column, and `INIT` clears. -/
theorem onlyInitLeavesFault : Obligations.OnlyInitLeavesFault := by
  refine fun i s hphase => ⟨fun hi => (exec_refused_wrongPhase_iff i s).2 ?_, ?_⟩
  · cases i with
    | init => exact absurd rfl hi
    | push | pad | split | next => simp [legalIn, hphase]
  · rintro rfl
    exact ⟨_, exec_init s, rfl, rfl, rfl, rfl⟩

/-! ### Refusals -/

section
variable {s : State} {r : Refusal}

theorem execPush_refused {b : Byte} (h : execPush b s = .refused r) :
    (r = .wrongPhase ∧ legalIn (.push b) s.phase = false) ∨
    (r = .capacity ∧ s.phase = .load ∧ s.cfg.bufCap = some s.blen) := by
  unfold execPush at h
  split_ifs at h with hlegal hfull
  · cases h; exact .inl ⟨rfl, hlegal⟩
  · cases h; exact .inr ⟨rfl, by simpa [legalIn] using hlegal, by simpa [bufferFull] using hfull⟩

theorem execPad_refused (h : execPad s = .refused r) :
    (r = .wrongPhase ∧ legalIn .pad s.phase = false) ∨
    (r = .capacity ∧ s.phase = .load ∧ s.blen < 2 ^ 61 ∧
      exceedsCap s (s.blen + 9 + zeroFill s.blen) = true) := by
  unfold execPad at h
  split_ifs at h with hlegal hlen hcap hodd
  · cases h; exact .inl ⟨rfl, hlegal⟩
  · cases h
  · cases h
    exact .inr ⟨rfl, by simpa [legalIn] using hlegal,
      by simpa [lengthOverflows_iff] using hlen, hcap⟩
  · cases h

theorem execSplit_refused (h : execSplit s = .refused r) :
    r = .wrongPhase ∧ legalIn .split s.phase = false := by
  unfold execSplit at h
  split_ifs at h with hlegal hodd
  · cases h; exact ⟨rfl, hlegal⟩
  · cases h

theorem execNext_refused (h : execNext s = .refused r) :
    r = .wrongPhase ∧ legalIn .next s.phase = false := by
  unfold execNext at h
  split_ifs at h with hlegal hend
  · cases h; exact ⟨rfl, hlegal⟩
  · split at h <;> cases h

end

/-- Why a command is refused: the phase test, and after it the capacity test of `PUSH` or of
`PAD`, whose overflow fault comes before it (R158). -/
theorem exec_refused_iff (i : Instr) (s : State) (r : Refusal) :
    exec i s = .refused r ↔
      (r = .wrongPhase ∧ legalIn i s.phase = false) ∨
      (r = .capacity ∧ s.phase = .load ∧ ∃ cap, s.cfg.bufCap = some cap ∧
        ((∃ b, i = .push b ∧ s.blen = cap) ∨
         (i = .pad ∧ s.blen < 2 ^ 61 ∧ cap < s.blen + (padTail s.blen).length))) := by
  have hsize : s.blen + (padTail s.blen).length = s.blen + 9 + zeroFill s.blen := by
    rw [length_padTail]; omega
  rw [hsize]
  constructor
  · intro h
    cases i with
    | init => cases h
    | push b =>
      obtain hphase | ⟨hr, hphase, hfull⟩ := execPush_refused h
      · exact .inl hphase
      · exact .inr ⟨hr, hphase, _, hfull, .inl ⟨b, rfl, rfl⟩⟩
    | pad =>
      obtain hphase | ⟨hr, hphase, hlen, hexceeds⟩ := execPad_refused h
      · exact .inl hphase
      · obtain ⟨cap, hcap, hlt⟩ := (exceedsCap_iff _ _).1 hexceeds
        exact .inr ⟨hr, hphase, cap, hcap, .inr ⟨rfl, hlen, hlt⟩⟩
    | split => exact .inl (execSplit_refused h)
    | next => exact .inl (execNext_refused h)
  · rintro (⟨rfl, hlegal⟩ | ⟨rfl, hphase, cap, hcap, ⟨b, rfl, rfl⟩ | ⟨rfl, hlen, hlt⟩⟩)
    · exact (exec_refused_wrongPhase_iff i s).2 hlegal
    · exact exec_push_of_full hphase hcap b
    · exact exec_pad_of_exceeds hphase hlen ((exceedsCap_iff _ _).2 ⟨cap, hcap, hlt⟩)

/-- Settles O30: a word that decodes to nothing is refused as such, any other for the reason its
command is. -/
theorem refusedExactlyWhen : Obligations.RefusedExactlyWhen := by
  intro s w rest r hinput
  cases hdecode : decode w with
  | error e => simp [step_invalid hinput hdecode, eq_comm]
  | ok i =>
    rw [stepRunsTheDecodedCommand s w rest i hinput hdecode, exec_refused_iff]
    cases i <;> simp [legalIn]

/-! ### What decides the outcome -/

section
variable {l₁ l₂ : List Response}

theorem sameFrom_ite {c : Prop} [Decidable c] {a₁ a₂ b₁ b₂ : Result}
    (ha : SameFrom l₁ l₂ a₁ a₂) (hb : SameFrom l₁ l₂ b₁ b₂) :
    SameFrom l₁ l₂ (if c then a₁ else b₁) (if c then a₂ else b₂) := by
  split_ifs
  · exact ha
  · exact hb

theorem sameFrom_next {t₁ t₂ : State} (rs : List Response) (helems : t₁.toArch = t₂.toArch)
    (h₁ : t₁.trace = l₁ ++ rs) (h₂ : t₂.trace = l₂ ++ rs) :
    SameFrom l₁ l₂ (.next t₁) (.next t₂) :=
  ⟨helems, rs, h₁, h₂⟩

end

/-- Settles O39: both states pass the same tests, so they reach the same arm, and each arm makes the
same update and the same response of them. -/
theorem outcomeDependsOnElementsAlone : Obligations.OutcomeDependsOnElementsAlone := by
  rintro i ⟨a, cfg, input₁, trace₁⟩ ⟨-, -, input₂, trace₂⟩ rfl rfl
  cases i with
  | init => exact sameFrom_next [.ack] rfl rfl rfl
  | push b => exact sameFrom_ite rfl (sameFrom_ite rfl (sameFrom_next [.ack] rfl rfl rfl))
  | pad =>
    exact sameFrom_ite rfl <| sameFrom_ite (sameFrom_next [.err .overflow] rfl rfl rfl) <|
      sameFrom_ite rfl <| sameFrom_ite (sameFrom_next [.err .padinv] rfl rfl rfl)
        (sameFrom_next [.ack] rfl rfl rfl)
  | split =>
    exact sameFrom_ite rfl <| sameFrom_ite (sameFrom_next [.err .align] rfl rfl rfl)
      (sameFrom_next [.ack] rfl rfl rfl)
  | next =>
    refine sameFrom_ite rfl (sameFrom_ite (sameFrom_next [.endSeq] rfl rfl rfl) ?_)
    cases a.buf.readBytes (blockAddr a) blockBytes with
    | none => rfl
    | some d => exact sameFrom_next [_] rfl rfl rfl

/-! ### Steps that run no command -/

section
variable {s : State}

theorem step_idle (h : s.input = []) : step s = .next s := by
  simp [step, fetch, h]

theorem step_reset {rest : List Event} (h : s.input = .reset :: rest) :
    step s = .next { s with input := rest }.takeReset := by
  simp [step, fetch, h]

end

/-- Settles O6: an empty stream holds the state, and a reset takes its event and clears. -/
theorem idleHoldsAndResetClears : Obligations.IdleHoldsAndResetClears :=
  ⟨fun _ => step_idle, fun _ _ h => ⟨_, step_reset h, rfl, rfl, rfl, rfl⟩⟩

end Sys2Proof.Machine
end

section
/-! Whole runs and allowed states settled (70_reset_and_hazards R186 to R193): how a run's trace
grows, that an allowed state never stops the model, what a padded buffer holds, and the number of
commands of one message. -/

namespace Sys2Proof.Machine

/-! ### The trace of a run -/

section
variable {s t : State}

/-- Every accepted command appends exactly one response (R193). -/
theorem exec_trace {i : Instr} (h : exec i s = .next t) : ∃ r, t.trace = s.trace ++ [r] := by
  cases i with
  | init => cases h; exact ⟨_, rfl⟩
  | push b => obtain ⟨-, -, rfl⟩ := execPush_next h; exact ⟨_, rfl⟩
  | pad => obtain ⟨-, ⟨-, rfl⟩ | ⟨-, -, ⟨-, rfl⟩ | ⟨-, rfl⟩⟩⟩ := execPad_next h <;> exact ⟨_, rfl⟩
  | split => obtain ⟨-, ⟨-, rfl⟩ | ⟨-, rfl⟩⟩ := execSplit_next h <;> exact ⟨_, rfl⟩
  | next => obtain ⟨-, ⟨-, rfl⟩ | ⟨-, d, -, rfl⟩⟩ := execNext_next h <;> exact ⟨_, rfl⟩

theorem step_offer_trace {w : Word} (h : step (s.offer w) = .next t) :
    ∃ r, t.trace = s.trace ++ [r] := by
  cases hdecode : decode w with
  | error e => rw [step_offer_invalid hdecode] at h; cases h
  | ok i => exact exec_trace ((step_offer hdecode).symm.trans h)

theorem runFrom_fault {w : Word} {f : Fault} (h : step (s.offer w) = .fault f) (k : Nat)
    (ws : List Word) : runFrom k (w :: ws) s = .stopped k f s := by
  rw [runFrom, h]

theorem runFrom_completed_trace {ws : List Word} {k : Nat} (h : runFrom k ws s = .completed t) :
    ∃ rs, t.trace = s.trace ++ rs ∧ rs.length = ws.length := by
  induction ws generalizing k s with
  | nil => cases h; exact ⟨[], (List.append_nil _).symm, rfl⟩
  | cons w ws ih =>
    cases hstep : step (s.offer w) with
    | next u =>
      obtain ⟨r, hr⟩ := step_offer_trace hstep
      obtain ⟨rs, hrs, hlen⟩ := ih ((runFrom_next hstep k).symm.trans h)
      exact ⟨r :: rs, by simp [hrs, hr], by simp [hlen]⟩
    | fault f => rw [runFrom_fault hstep] at h; cases h
    | refused r => rw [runFrom_refused hstep] at h; cases h

/-- A run that is refused `n` words on completed those `n` words, in the state it reports (R194). -/
theorem runFrom_refused_take {ws : List Word} {k p : Nat} {r : Refusal}
    (h : runFrom k ws s = .refused p r t) :
    ∃ n, p = k + n ∧ n < ws.length ∧ runFrom k (ws.take n) s = .completed t := by
  induction ws generalizing k s with
  | nil => cases h
  | cons w ws ih =>
    cases hstep : step (s.offer w) with
    | next u =>
      obtain ⟨n, rfl, hn, hrun⟩ := ih ((runFrom_next hstep k).symm.trans h)
      exact ⟨n + 1, by omega, Nat.succ_lt_succ hn, (runFrom_next hstep k).trans hrun⟩
    | fault f => rw [runFrom_fault hstep] at h; cases h
    | refused r' =>
      rw [runFrom_refused hstep] at h
      cases h
      exact ⟨0, rfl, Nat.succ_pos _, rfl⟩

end

/-- Settles O32: one response per accepted word by induction on the words; a refused run is a
completed run of the words before the refused one. -/
theorem traceGrowsByOnePerAcceptedWord : Obligations.TraceGrowsByOnePerAcceptedWord := by
  refine fun ws s => ⟨fun t h => runFrom_completed_trace h, fun k r t h => ?_⟩
  obtain ⟨n, hk, hn, hrun⟩ := runFrom_refused_take h
  obtain rfl : k = n := hk.trans (Nat.zero_add n)
  obtain ⟨rs, htrace, hlen⟩ := runFrom_completed_trace hrun
  exact ⟨hn, ⟨rs, htrace, hlen.trans (List.length_take_of_le hn.le)⟩, hrun⟩

/-! ### Allowed states -/

section
variable {s : State}

/-- `NEXT` is the only command that can stop the model, by reading outside the buffer. -/
theorem eq_next_of_exec_fault {i : Instr} {f : Fault} (h : exec i s = .fault f) : i = .next := by
  cases i with
  | init => cases h
  | push b => change execPush b s = _ at h; unfold execPush at h; split_ifs at h
  | pad => change execPad s = _ at h; unfold execPad raise at h; split_ifs at h
  | split => change execSplit s = _ at h; unfold execSplit raise at h; split_ifs at h
  | next => rfl

theorem exec_ne_fault_of_inv (h : Inv s) (i : Instr) (f : Fault) : exec i s ≠ .fault f := by
  intro hexec
  obtain rfl := eq_next_of_exec_fault hexec
  obtain ⟨-, -, -, hsafe⟩ := nextDeliversTheBlockOrEnd s
  exact hsafe h f hexec

/-- In an allowed state a command completes into an allowed state or is refused (R192). -/
theorem exec_next_or_refused_of_inv (h : Inv s) (i : Instr) :
    (∃ t, exec i s = .next t ∧ Inv t) ∨ ∃ r, exec i s = .refused r := by
  cases hexec : exec i s with
  | next t => exact .inl ⟨t, rfl, h.exec hexec⟩
  | fault f => exact absurd hexec (exec_ne_fault_of_inv h i f)
  | refused r => exact .inr ⟨r, rfl⟩

end

/-- Settles O37: an idle step and a reset always complete, a word that decodes to nothing is
refused, and a command does one or the other. -/
theorem allowedStatesNeverStop : Obligations.AllowedStatesNeverStop := by
  intro s h
  rcases hinput : s.input with _ | ⟨w | _, rest⟩
  · exact .inl ⟨s, step_idle hinput, h⟩
  · cases hdecode : decode w with
    | error e => exact .inr ⟨_, step_invalid hinput hdecode⟩
    | ok i =>
      rw [stepRunsTheDecodedCommand s w rest i hinput hdecode]
      exact exec_next_or_refused_of_inv (h.setInput rest) i
  · exact .inl ⟨_, step_reset hinput, (h.setInput rest).clear⟩

/-! ### The padded buffer -/

section
variable {a : Arch}

theorem PaddedLayout.blen_eq (h : PaddedLayout a) :
    a.blen = a.mlen + (padTail a.mlen).length := by
  have hlen : a.blen = a.mlen + 1 + zeroFill a.mlen + 8 := h.length
  rw [hlen, length_padTail]
  omega

/-- Behind the message the layout of 10_state R38 (d) holds what `PAD` appends, byte by byte: the
marker, the fill, and the length field. -/
theorem PaddedLayout.readByte_tail (h : PaddedLayout a) {k : Nat} (hk : k < zeroFill a.mlen + 9) :
    a.buf.readByte (a.mlen + k) = (padTail a.mlen)[k]? := by
  have hlen := h.blen_eq
  rw [length_padTail] at hlen
  rcases Nat.eq_zero_or_pos k with rfl | hpos
  · exact h.markerAt
  · rcases Nat.lt_or_ge (zeroFill a.mlen) k with hfield | hfill
    · obtain ⟨j, rfl⟩ := Nat.exists_eq_add_of_le (show zeroFill a.mlen + 1 ≤ k by omega)
      have haddr : a.mlen + (zeroFill a.mlen + 1 + j) = a.blen - 8 + j := by omega
      have hbits : a.bitlen = bitLength a.mlen := h.bits
      rw [haddr, h.lengthAt j (by omega), getElem?_padTail_length _ (by omega), hbits]
    · rw [h.fillAt _ (by omega) (by omega), getElem?_padTail_fill hpos hfill]

/-- The padded buffer is the message of `MLEN` bytes and what `PAD` appends to it. -/
theorem PaddedLayout.bytes_eq (h : PaddedLayout a) (hbuf : BufferIs a) :
    a.buf.bytes = a.buf.bytes.take a.mlen ++ padTail a.mlen := by
  suffices htail : a.buf.bytes.drop a.mlen = padTail a.mlen by
    rw [← htail, List.take_append_drop]
  have hlen : (a.buf.bytes.drop a.mlen).length = (padTail a.mlen).length := by
    rw [List.length_drop, hbuf.bytes_length, h.blen_eq, Nat.add_sub_cancel_left]
  refine List.ext_getElem? fun k => ?_
  rcases Nat.lt_or_ge k (padTail a.mlen).length with hk | hk
  · rw [List.getElem?_drop, ← hbuf.readByte_eq, h.readByte_tail (length_padTail _ ▸ hk)]
  · rw [List.getElem?_eq_none (hlen.trans_le hk), List.getElem?_eq_none hk]

theorem PaddedLayout.length_message (h : PaddedLayout a) (hbuf : BufferIs a) :
    (a.buf.bytes.take a.mlen).length = a.mlen :=
  List.length_take_of_le (by rw [hbuf.bytes_length, h.blen_eq]; exact Nat.le_add_right _ _)

end

/-- Settles O38: with `PD = 1` the invariant gives the padded layout, which is the message and its
padding, and whole blocks. -/
theorem padDoneMeansPaddedMessage : Obligations.PadDoneMeansPaddedMessage := by
  intro s h hpd
  have hlayout := h.done hpd
  have hmessage := hlayout.length_message h.buffer
  have hlen : s.buf.bytes.length = s.blen := Memory.Filled.bytes_length h.buffer
  refine ⟨hmessage, ?_, _, splitBlocks_of_aligned (hlen.symm ▸ hlayout.aligned), by simp [hlen]⟩
  rw [pad_of_lt (hmessage.trans_lt hlayout.short), hmessage, ← hlayout.bytes_eq h.buffer]

/-! ### The commands of one message -/

theorem length_expand_pushs (a : Arch) (m : List Byte) : (expand a (.pushs m)).length = m.length :=
  List.length_map ..

/-- `PAD`, `SPLIT`, one `NEXT` per block, and one more for `END`. -/
theorem length_expand_prep (a : Arch) : (expand a .prep).length = paddedBlocks a.blen + 3 := by
  simp [expand, drainCommands]

/-- Settles O45: the message's bytes one by one, then `PREP` on its padded blocks (R132). -/
theorem commandCountOfOneMessage : Obligations.CommandCountOfOneMessage := by
  intro a b m hblen
  rw [length_expand_pushs, length_expand_prep, hblen, paddedBlocks, blockBytes_eq]
  omega

end Sys2Proof.Machine
end
